-- ==== Sys2Proof/Word.lean ====
section
/-! DEFINITION. The two word widths the block's ports and registers use (spec/20_memory.md R45). -/

namespace Sys2Proof

/-- A 64-bit word: an operand, CURSOR, BUFFER, a raw word or VALUE (20_memory.md R45). -/
abbrev Word := BitVec 64

/-- An 8-bit value: an element of BYTES, or the code of a STATUS (20_memory.md R45). -/
abbrev Byte := BitVec 8

/-- A whole command: 256 bits, four words (30_encoding.md R50). -/
abbrev Command := BitVec 256

end Sys2Proof
end

