-- ==== Sys2Proof/Config.lean ====
section
/-! DEFINITION. The parameters of the block (spec/00_scope.md R5) and the one of them that stays open. -/

namespace Sys2Proof

/-- The two values of the parameter F64_ROUNDING (00_scope.md R5; 43_generators.md R104). -/
inductive F64Rounding where
  /-- toward zero: the default, and the value for this hardware -/
  | rtz
  /-- to nearest, ties to even -/
  | rne
  deriving DecidableEq, Repr

/-- Exactly the parameters of 00_scope.md R5, with the law R5 asks of `WS.seedValid`.
Fixed for the life of an instance (70_reset_and_hazards.md R157), so no part of State. -/
structure Params where
  /-- `WS.next`: from a cursor, the next raw word and the advanced cursor; any total function. -/
  next : Word → Word × Word
  /-- `WS.seedValid`: which seeds INIT accepts. -/
  seedValid : Word → Bool
  /-- The required law `seedValid(0) = false`. -/
  seedValid_zero : seedValid 0 = false
  /-- `F64_ROUNDING`. -/
  rounding : F64Rounding

/-- The word source of this hardware. OPEN (00_scope.md R5, 92_eei_decisions.md D9): it has no body,
so nothing proved of the machine can rest on which words it gives. Log entry 5. -/
opaque Config.wsNext : Word → Word × Word

end Sys2Proof
end

