-- ==== Sys2Proof/Machine/State.lean ====
section
/-! DEFINITION. The state of the block (spec/10_state.md R20, R31) with the host's side of its ports,
the reasons a step can stop, and the state after reset. -/

namespace Sys2Proof.Machine

/-- The STATUS of a response (60_exceptions.md R130). The block has no other value to give. -/
inductive Status where
  /-- the command completed -/
  | ok
  /-- an operand is outside its legal range -/
  | outOfRange
  /-- the two bounds of NEXTU64R are not ordered -/
  | invalidArgument
  /-- a generator command was issued while VALID = 0 -/
  | notInitialized
  /-- the header does not decode -/
  | illegalCommand
  deriving DecidableEq, Repr

/-- A response: STATUS, VALUE and BYTES (30_encoding.md R57). -/
structure Response where
  status : Status
  value  : Word
  bytes  : List Byte
  deriving DecidableEq, Repr

/-- The elements of the state, by name (10_state.md R20). -/
inductive Element where
  | valid
  | cursor
  | buffer
  | fresh
  deriving DecidableEq, Repr

/-- An act of the host between two commands: the interactions of 70_reset_and_hazards.md R157. Acts the
table says a host never does have no value here, so the model gives them no move (log entry 1). -/
inductive HostAct where
  /-- present a 256-bit command: any pattern -/
  | command (c : Command)
  /-- read an element by its number, 0 to 3, through the state-read port (10_state.md R27) -/
  | stateRead (n : Fin 4)
  /-- the reset event (70_reset_and_hazards.md R150) -/
  | reset
  deriving DecidableEq, Repr

/-- Something that passed over a port of the block (20_memory.md R40). -/
inductive PortEvent where
  /-- a word-source transaction: the cursor sent, the raw word and the cursor returned (20_memory.md R41) -/
  | draw (cursor word next : Word)
  /-- the response to a command (30_encoding.md R57) -/
  | response (r : Response)
  /-- the answer of the state-read port, zero-extended to 64 bits (10_state.md R27) -/
  | stateValue (e : Element) (v : Word)
  deriving DecidableEq, Repr

/-- The state. VALID, CURSOR, BUFFER and FRESH are all the block holds (10_state.md R20, R31).
`pending` and `trace` are the model's own: the host's acts still to come, next first (log entry 1), and
what has passed over the ports so far, oldest first (log entry 2). No command reads either. -/
structure State where
  /-- VALID, 1 bit -/
  valid   : Bool
  /-- CURSOR, 64 bits, opaque to the block (10_state.md R23) -/
  cursor  : Word
  /-- BUFFER, 64 bits (10_state.md R24, R25) -/
  buffer  : Word
  /-- FRESH, 7 bits, legal 0 to 64 (10_state.md R26) -/
  fresh   : BitVec 7
  /-- the host's acts still to come -/
  pending : List HostAct
  /-- what has passed over the ports -/
  trace   : List PortEvent
  deriving DecidableEq, Repr

/-- Why a step stops with a fault. -/
inductive Fault where
  /-- Raised by the state-read port when CURSOR, BUFFER or FRESH is read while VALID = 0: the read returns no
  value, and "a model faults such a read rather than return a number" (10_state.md R27). Safe. -/
  | readWhileInvalid (e : Element)
  deriving DecidableEq, Repr

/-- Why a step is refused. -/
inductive Refusal where
  /-- Raised by an arm of `exec` whose instruction has no meaning yet; no arm raises it now. Safe. -/
  | notModelled (mnemonic : String)
  deriving DecidableEq, Repr

/-- The state right after reset: VALID = 0 (10_state.md R33). CURSOR, BUFFER and FRESH hold no value then; the zeros
stand for that (DESIGN CHOICE, log entry 3), and no host can read them while VALID = 0. Nothing is presented and nothing has
passed over a port. -/
def State.reset : State where
  valid   := false
  cursor  := 0
  buffer  := 0
  fresh   := 0
  pending := []
  trace   := []

end Sys2Proof.Machine
end

