-- ==== Sys2Proof/Machine/Flags.lean ====
section
/-! DEFINITION. The block has no flags or condition codes (spec/10_state.md R32); what a command reports is the
STATUS of its response. This file gives the codes of STATUS (60_exceptions.md R130) and the shapes of a response. -/

namespace Sys2Proof.Machine

/-- The 8-bit code a STATUS has on the response port (60_exceptions.md R130). -/
def statusCode : Status → Byte
  | .ok => 0x00
  | .outOfRange => 0x01
  | .invalidArgument => 0x02
  | .notInitialized => 0x03
  | .illegalCommand => 0x04

/-- The response of `respond(v)` (30_encoding.md R57). -/
def valueResponse (v : Word) : Response := ⟨.ok, v, []⟩

/-- The response of `respond_bytes(L)` (30_encoding.md R57). -/
def bytesResponse (l : List Byte) : Response := ⟨.ok, 0, l⟩

/-- The response of `respond_none()` (30_encoding.md R57). -/
def emptyResponse : Response := ⟨.ok, 0, []⟩

/-- The response of `raise Error(code)` (00_scope.md R10). -/
def errorResponse (st : Status) : Response := ⟨st, 0, []⟩

end Sys2Proof.Machine
end

