-- ==== Sys2Proof/Machine/Operands.lean ====
section
/-! DEFINITION. How words are read and shifted: the primitives of spec/00_scope.md R7 and R8, and the
product of 41_widemul.md R80 in its two forms. -/

namespace Sys2Proof.Machine

/-- `uint64(x)` (00_scope.md R7). -/
def uint64 (x : Word) : Nat := x.toNat

/-- `sint64(x)`, two's complement (00_scope.md R7). -/
def sint64 (x : Word) : Int :=
  if x.getLsbD 63 then (x.toNat : Int) - 2 ^ 64 else (x.toNat : Int)

/-- `pat(i) = i mod 2^64` (00_scope.md R7). -/
def pat (i : Int) : Word := BitVec.ofInt 64 i

/-- `mask(n)`: bits `[n-1:0]` set, for `0 <= n <= 64` (00_scope.md R8). -/
def mask (n : Nat) : Word := BitVec.ofNat 64 (2 ^ n - 1)

/-- `x >> k`: zeros come in from the top, and a shift by 64 gives 0 (00_scope.md R8). -/
def shiftRight (x : Word) (k : Nat) : Word := x >>> k

/-- `(x << k)[63:0]` (00_scope.md R6). -/
def shiftLeft (x : Word) (k : Nat) : Word := x <<< k

/-- `floor(v * m / 2^64)`: the high half of an exact product (41_widemul.md R80; 43_generators.md R101, R102). -/
def scaleHigh (v m : Nat) : Nat := v * m / 2 ^ 64

/-- `floor(uint64(x) * uint64(y) / 2^64)`, which is below 2^64 (41_widemul.md R80). -/
def mulHigh (x y : Word) : Word := BitVec.ofNat 64 (scaleHigh (uint64 x) (uint64 y))

/-- The low 32 bits of a natural number, `v[31:0]` (00_scope.md R6). -/
def low32 (v : Nat) : Nat := v % 2 ^ 32

/-- `v[63:32]` of a number below 2^64 (00_scope.md R6). -/
def high32 (v : Nat) : Nat := v / 2 ^ 32

/-- The partial-product form of MULHI, line by line (41_widemul.md R83). -/
def mulHighPartial (x y : Word) : Word :=
  let xl := low32 (uint64 x)
  let xh := high32 (uint64 x)
  let yl := low32 (uint64 y)
  let yh := high32 (uint64 y)
  let ll := xl * yl
  let lh := xl * yh
  let hl := xh * yl
  let hh := xh * yh
  let mid := high32 ll + low32 lh + low32 hl
  BitVec.ofNat 64 (hh + high32 lh + high32 hl + high32 mid)

end Sys2Proof.Machine
end

