-- ==== Sys2Proof/Machine/Ops.lean ====
section
/-! DEFINITION. The named operations over the state registers and the ports: Draw, Take, responding, raising an
error, loading a state, reading an element and reset. Every meaning is written over these. -/

namespace Sys2Proof.Machine

/-- What a command or a host act answers. -/
abbrev Answer := Host.Outcome State Fault Refusal

/-- The default `WS.seedValid`: `sint64(s) > 0` (00_scope.md R5). -/
def defaultSeedValid (s : Word) : Bool := decide (0 < sint64 s)

/-- The parameter values of this hardware (00_scope.md R5, column "value for this hardware"): an open word source,
the default seed check and RTZ. Log entries 5, 6 and 7. -/
def hardware : Params where
  next := Config.wsNext
  seedValid := defaultSeedValid
  seedValid_zero := by decide
  rounding := .rtz

/-- Record that `e` passed over a port (log entry 2). -/
def State.emit (s : State) (e : PortEvent) : State := { s with trace := s.trace ++ [e] }

/-- Write BUFFER and FRESH. -/
def State.setBits (s : State) (buffer : Word) (fresh : BitVec 7) : State :=
  { s with buffer := buffer, fresh := fresh }

/-- Write all four elements, VALID to 1: what INIT and LDSTATE do when they complete (10_state.md R28). -/
def State.load (s : State) (cursor buffer : Word) (fresh : BitVec 7) : State :=
  { s with valid := true, cursor := cursor, buffer := buffer, fresh := fresh }

/-- End a command with STATUS = OK and a VALUE (30_encoding.md R57). -/
def respond (v : Word) (s : State) : Answer := .next (s.emit (.response (valueResponse v)))

/-- End a command with STATUS = OK and BYTES (30_encoding.md R57). -/
def respondBytes (l : List Byte) (s : State) : Answer := .next (s.emit (.response (bytesResponse l)))

/-- End a command with STATUS = OK and nothing else (30_encoding.md R57). -/
def respondNone (s : State) : Answer := .next (s.emit (.response emptyResponse))

/-- `raise Error(code)`: the block's whole exception mechanism. The response is the error; no state is written, nothing
is drawn, and there is no handler to go to or to return from (00_scope.md R10; 60_exceptions.md R131, R134, R135). -/
def raiseError (st : Status) (s : State) : Answer := .next (s.emit (.response (errorResponse st)))

/-- `Draw()`: one word-source transaction. CURSOR goes out, the raw word and the next cursor come back
(00_scope.md R9; 20_memory.md R41). -/
def draw (P : Params) (s : State) : Word × State :=
  let answer := P.next s.cursor
  (answer.1, { s with cursor := answer.2, trace := s.trace ++ [.draw s.cursor answer.1 answer.2] })

/-- `Take(n)`: the next `n` bits of the stream, for `1 <= n <= 64` and VALID = 1 (42_bitfield.md R90). Case 1 needs no draw,
case 2 makes exactly one. -/
def take (P : Params) (n : Nat) (s : State) : Word × State :=
  let f := s.fresh.toNat
  if n ≤ f then
    (s.buffer &&& mask n, s.setBits (shiftRight s.buffer n) (BitVec.ofNat 7 (f - n)))
  else
    let d := n - f
    let drawn := draw P s
    ((s.buffer &&& mask f) ||| shiftLeft (drawn.1 &&& mask d) f,
      drawn.2.setBits (shiftRight drawn.1 d) (BitVec.ofNat 7 (64 - d)))

/-- `count` calls of `Take(8)`, the bytes in order (43_generators.md R106). -/
def takeBytes (P : Params) : Nat → State → List Byte × State
  | 0, s => ([], s)
  | count + 1, s =>
    let first := take P 8 s
    let rest := takeBytes P count first.2
    (first.1.extractLsb' 0 8 :: rest.1, rest.2)

/-- The check every generator command makes last: NOT_INITIALIZED while VALID = 0 (60_exceptions.md R132, R133). -/
def whenValid (s : State) (run : State → Answer) : Answer :=
  if s.valid then run s else raiseError .notInitialized s

/-- Take `n` bits of the stream and answer a VALUE computed from them. -/
def takeAndRespond (P : Params) (n : Nat) (value : Word → Word) (s : State) : Answer :=
  respond (value (take P n s).1) (take P n s).2

/-- The end of INIT and LDSTATE: reject `uint64(C) > 64`, else write all four elements, BUFFER unchanged and
FRESH = C[6:0] (40_state_commands.md R70, R71; 10_state.md R25). -/
def loadState (cursor buf fresh : Word) (s : State) : Answer :=
  if 64 < uint64 fresh then raiseError .outOfRange s
  else respondNone (s.load cursor buf (fresh.extractLsb' 0 7))

/-- The element a number selects (10_state.md R20, column "no."). -/
def elementOfNumber : Fin 4 → Element
  | 0 => .valid
  | 1 => .cursor
  | 2 => .buffer
  | 3 => .fresh

/-- An element's value, zero-extended to 64 bits (10_state.md R27). -/
def readElement (e : Element) (s : State) : Word :=
  match e with
  | .valid => if s.valid then 1 else 0
  | .cursor => s.cursor
  | .buffer => s.buffer
  | .fresh => s.fresh.setWidth 64

/-- A read through the state-read port. While VALID = 0 only VALID has a value to return (10_state.md R27). -/
def readPort (n : Fin 4) (s : State) : Answer :=
  let e := elementOfNumber n
  if s.valid ∨ e = .valid then .next (s.emit (.stateValue e (readElement e s)))
  else .fault (.readWhileInvalid e)

/-- The reset event: VALID <- 0, no draw, no response (70_reset_and_hazards.md R150). CURSOR, BUFFER and FRESH hold no value
after it; the model gives them what they hold in `State.reset` (DESIGN CHOICE, log entry 4). -/
def hostReset (s : State) : Answer :=
  .next { s with valid := false, cursor := State.reset.cursor, buffer := State.reset.buffer, fresh := State.reset.fresh }

end Sys2Proof.Machine
end

