-- ==== Sys2Proof/Machine/BitField.lean ====
section
/-! DEFINITION. The command NEXTN (spec/42_bitfield.md R91). -/

namespace Sys2Proof.Machine

/-- NEXTN n under parameters `P`: the width check, then VALID, then `Take(n)` (42_bitfield.md R91). -/
def nextnWith (P : Params) (n : Word) (s : State) : Answer :=
  if uint64 n < 1 ∨ 64 < uint64 n then raiseError .outOfRange s
  else whenValid s (takeAndRespond P (uint64 n) id)

/-- NEXTN n on this hardware. -/
def execNextn (n : Word) (s : State) : Answer := nextnWith hardware n s

end Sys2Proof.Machine
end

