-- ==== Sys2Proof/Machine/UnitF64.lean ====
section
/-! DEFINITION. `UnitF64(v)`: the binary64 pattern for v / 2^64 (spec/43_generators.md R104). -/

namespace Sys2Proof.Machine

/-- `{0b0, E[10:0], m[51:0]}` (43_generators.md R104; the binary64 layout, log entry 17). -/
def packF64 (e m : Nat) : Word := 0#1 ++ BitVec.ofNat 11 e ++ BitVec.ofNat 52 m

/-- Whether the significand `m` with the `s` dropped bits `rem` is incremented: never under RTZ, above half an ulp or
at a tie with an odd significand under RNE (43_generators.md R104). -/
def roundsUp (mode : F64Rounding) (m rem s : Nat) : Bool :=
  match mode with
  | .rtz => false
  | .rne => decide (2 ^ (s - 1) < rem) || (decide (rem = 2 ^ (s - 1)) && decide (m % 2 = 1))

/-- `UnitF64(v)`, line by line (43_generators.md R104). -/
def unitF64 (mode : F64Rounding) (v : Word) : Word :=
  if v = 0 then 0
  else
    let p := Nat.log2 (uint64 v)
    let e := p + 959
    if p ≤ 52 then packF64 e (uint64 v * 2 ^ (52 - p))
    else
      let s := p - 52
      let m := uint64 v / 2 ^ s
      let rem := uint64 v % 2 ^ s
      if roundsUp mode m rem s then
        if m + 1 = 2 ^ 53 then packF64 (e + 1) (2 ^ 52) else packF64 e (m + 1)
      else packF64 e m

end Sys2Proof.Machine
end

