-- ==== Sys2Proof/Machine/Generators.lean ====
section
/-! DEFINITION. The derived generators NEXTU64, NEXTU64B, NEXTU64R, NEXTI64, NEXTF64 and NEXTBYTES
(spec/43_generators.md), each under parameters and on this hardware. -/

namespace Sys2Proof.Machine

/-- NEXTU64: the next 64 stream bits (43_generators.md R100). -/
def nextu64With (P : Params) (s : State) : Answer := whenValid s (takeAndRespond P 64 id)

/-- NEXTU64 on this hardware. -/
def execNextu64 (s : State) : Answer := nextu64With hardware s

/-- NEXTU64B max: `floor(v * max / 2^64)` of the next 64 stream bits, which is MULHI(v, max) (43_generators.md R101). -/
def nextu64bWith (P : Params) (max : Word) (s : State) : Answer :=
  if uint64 max = 0 then raiseError .outOfRange s
  else whenValid s (takeAndRespond P 64 (fun v => mulHigh v max))

/-- NEXTU64B max on this hardware. -/
def execNextu64b (max : Word) (s : State) : Answer := nextu64bWith hardware max s

/-- NEXTU64R min, max: `lo + floor(v * (hi - lo) / 2^64)`, an exact sum (43_generators.md R102). -/
def nextu64rWith (P : Params) (min max : Word) (s : State) : Answer :=
  let lo := uint64 min
  let hi := uint64 max
  if ¬ lo < hi then raiseError .invalidArgument s
  else whenValid s (takeAndRespond P 64 (fun v => BitVec.ofNat 64 (lo + scaleHigh (uint64 v) (hi - lo))))

/-- NEXTU64R min, max on this hardware. -/
def execNextu64r (min max : Word) (s : State) : Answer := nextu64rWith hardware min max s

/-- NEXTI64: the next 64 stream bits, read as sint64 (43_generators.md R103). -/
def nexti64With (P : Params) (s : State) : Answer := whenValid s (takeAndRespond P 64 id)

/-- NEXTI64 on this hardware. -/
def execNexti64 (s : State) : Answer := nexti64With hardware s

/-- NEXTF64: UnitF64 of the next 64 stream bits, under F64_ROUNDING (43_generators.md R105). -/
def nextf64With (P : Params) (s : State) : Answer := whenValid s (takeAndRespond P 64 (unitF64 P.rounding))

/-- NEXTF64 on this hardware. -/
def execNextf64 (s : State) : Answer := nextf64With hardware s

/-- NEXTBYTES count: `count` bytes, each `Take(8)`, count read as sint64 (43_generators.md R106). -/
def nextbytesWith (P : Params) (count : Word) (s : State) : Answer :=
  if sint64 count < 0 then raiseError .outOfRange s
  else whenValid s (fun t =>
    respondBytes (takeBytes P (sint64 count).toNat t).1 (takeBytes P (sint64 count).toNat t).2)

/-- NEXTBYTES count on this hardware. -/
def execNextbytes (count : Word) (s : State) : Answer := nextbytesWith hardware count s

end Sys2Proof.Machine
end

