-- ==== Sys2Proof/Machine/StateCommands.lean ====
section
/-! DEFINITION. The state commands INIT and LDSTATE (spec/40_state_commands.md). -/

namespace Sys2Proof.Machine

/-- INIT seed, buf, fresh under parameters `P`: the seed check, then the check and the writes of
`loadState` (40_state_commands.md R70). -/
def initWith (P : Params) (seed buf fresh : Word) (s : State) : Answer :=
  if P.seedValid seed then loadState seed buf fresh s else raiseError .outOfRange s

/-- INIT seed, buf, fresh on this hardware. -/
def execInit (seed buf fresh : Word) (s : State) : Answer := initWith hardware seed buf fresh s

/-- LDSTATE cursor, buf, fresh: no seed check (40_state_commands.md R71). -/
def execLdstate (cursor buf fresh : Word) (s : State) : Answer := loadState cursor buf fresh s

end Sys2Proof.Machine
end

