-- ==== Sys2Proof/Machine/WideMultiply.lean ====
section
/-! DEFINITION. The stateless commands MULHI, ASI64 and ASU64 (spec/41_widemul.md). -/

namespace Sys2Proof.Machine

/-- MULHI x, y: the high 64 bits of the product (41_widemul.md R80). -/
def execMulhi (x y : Word) (s : State) : Answer := respond (mulHigh x y) s

/-- ASI64 u: the same 64 bits, read as sint64 (41_widemul.md R81). -/
def execAsi64 (u : Word) (s : State) : Answer := respond u s

/-- ASU64 i: the same 64 bits, read as uint64 (41_widemul.md R82). -/
def execAsu64 (i : Word) (s : State) : Answer := respond i s

end Sys2Proof.Machine
end

