-- ==== Sys2Proof/Syntax.lean ====
section
/-! DEFINITION. The commands of spec/opcode_table.json, one constructor a row (spec/30_encoding.md R52). -/

namespace Sys2Proof

/-- A decoded command. Each constructor carries the operand words the command reads, whole, in the
order A, B, C (30_encoding.md R53); words it does not read are dropped by decoding (R56). -/
inductive Instr where
  /-- MULHI x, y (41_widemul.md R80) -/
  | mulhi (x y : Word)
  /-- ASI64 u (41_widemul.md R81) -/
  | asi64 (u : Word)
  /-- ASU64 i (41_widemul.md R82) -/
  | asu64 (i : Word)
  /-- NEXTN n (42_bitfield.md R91) -/
  | nextn (n : Word)
  /-- NEXTU64 (43_generators.md R100) -/
  | nextu64
  /-- NEXTU64B max (43_generators.md R101) -/
  | nextu64b (max : Word)
  /-- NEXTU64R min, max (43_generators.md R102) -/
  | nextu64r (min max : Word)
  /-- NEXTI64 (43_generators.md R103) -/
  | nexti64
  /-- NEXTF64 (43_generators.md R105) -/
  | nextf64
  /-- NEXTBYTES count (43_generators.md R106) -/
  | nextbytes (count : Word)
  /-- INIT seed, buf, fresh (40_state_commands.md R70) -/
  | init (seed buf fresh : Word)
  /-- LDSTATE cursor, buf, fresh (40_state_commands.md R71) -/
  | ldstate (cursor buf fresh : Word)
  deriving DecidableEq, Repr

end Sys2Proof
end

