-- ==== Sys2Proof/Machine/Dispatch.lean ====
section
/-! DEFINITION. Each command's meaning, on this hardware: one arm per constructor of Instr. -/

namespace Sys2Proof.Machine

/-- Perform a decoded command whole, from the state before it to the state after it (10_state.md R30). -/
def exec (i : Instr) (s : State) : Host.Outcome State Fault Refusal :=
  match i with
  | .mulhi x y => Sys2Proof.Machine.execMulhi x y s
  | .asi64 u => Sys2Proof.Machine.execAsi64 u s
  | .asu64 v => Sys2Proof.Machine.execAsu64 v s
  | .nextn n => Sys2Proof.Machine.execNextn n s
  | .nextu64 => Sys2Proof.Machine.execNextu64 s
  | .nextu64b max => Sys2Proof.Machine.execNextu64b max s
  | .nextu64r min max => Sys2Proof.Machine.execNextu64r min max s
  | .nexti64 => Sys2Proof.Machine.execNexti64 s
  | .nextf64 => Sys2Proof.Machine.execNextf64 s
  | .nextbytes count => Sys2Proof.Machine.execNextbytes count s
  | .init seed buf fresh => Sys2Proof.Machine.execInit seed buf fresh s
  | .ldstate cursor buf fresh => Sys2Proof.Machine.execLdstate cursor buf fresh s

end Sys2Proof.Machine
end

