-- ==== Sys2Proof/Decode.lean ====
section
/-! DEFINITION. The decoder and the encoder of 256-bit commands (spec/30_encoding.md R50 to R58, R60). -/

namespace Sys2Proof

/-- W0 = H, bits [63:0] of the command (30_encoding.md R50). -/
def Command.h (c : Command) : Word := c.extractLsb' 0 64

/-- W1 = A, bits [127:64] of the command (30_encoding.md R50). -/
def Command.a (c : Command) : Word := c.extractLsb' 64 64

/-- W2 = B, bits [191:128] of the command (30_encoding.md R50). -/
def Command.b (c : Command) : Word := c.extractLsb' 128 64

/-- W3 = C, bits [255:192] of the command (30_encoding.md R50). -/
def Command.c (c : Command) : Word := c.extractLsb' 192 64

/-- The command C:B:A:H, with H in bits [63:0] (30_encoding.md R50). -/
def commandOf (h a b c : Word) : Command := c ++ b ++ a ++ h

/-- OPC = H[7:0] (30_encoding.md R51). -/
def headerOpc (h : Word) : BitVec 8 := h.extractLsb' 0 8

/-- RSVD = H[63:8] (30_encoding.md R51). -/
def headerRsvd (h : Word) : BitVec 56 := h.extractLsb' 8 56

/-- Why a header does not decode. Either way the response is ILLEGAL_COMMAND (60_exceptions.md R132). -/
inductive DecodeError where
  /-- RSVD is not zero, whatever OPC holds (30_encoding.md R54) -/
  | reservedBits (rsvd : BitVec 56)
  /-- OPC is one of the 244 values R52 does not list (30_encoding.md R55) -/
  | unlistedOpcode (opc : BitVec 8)
  deriving DecidableEq, Repr

/-- The decoder of 30_encoding.md R58: RSVD first, then OPC. A, B and C only become operands. -/
def decode (c : Command) : Except DecodeError Instr :=
  if headerRsvd c.h ≠ 0 then .error (.reservedBits (headerRsvd c.h))
  else
    match headerOpc c.h with
    | 0x01#8 => .ok (.mulhi c.a c.b)
    | 0x02#8 => .ok (.asi64 c.a)
    | 0x03#8 => .ok (.asu64 c.a)
    | 0x10#8 => .ok (.nextn c.a)
    | 0x11#8 => .ok .nextu64
    | 0x12#8 => .ok (.nextu64b c.a)
    | 0x13#8 => .ok (.nextu64r c.a c.b)
    | 0x14#8 => .ok .nexti64
    | 0x15#8 => .ok .nextf64
    | 0x16#8 => .ok (.nextbytes c.a)
    | 0x20#8 => .ok (.init c.a c.b c.c)
    | 0x21#8 => .ok (.ldstate c.a c.b c.c)
    | opc => .error (.unlistedOpcode opc)

/-- OPC of each command (30_encoding.md R52). -/
def opcode : Instr → BitVec 8
  | .mulhi _ _ => 0x01
  | .asi64 _ => 0x02
  | .asu64 _ => 0x03
  | .nextn _ => 0x10
  | .nextu64 => 0x11
  | .nextu64b _ => 0x12
  | .nextu64r _ _ => 0x13
  | .nexti64 => 0x14
  | .nextf64 => 0x15
  | .nextbytes _ => 0x16
  | .init _ _ _ => 0x20
  | .ldstate _ _ _ => 0x21

/-- The words A, B and C of each command, zero where the command does not read the word
(30_encoding.md R56, R60). -/
def operandWords : Instr → Word × Word × Word
  | .mulhi x y => (x, y, 0)
  | .asi64 u => (u, 0, 0)
  | .asu64 i => (i, 0, 0)
  | .nextn n => (n, 0, 0)
  | .nextu64 => (0, 0, 0)
  | .nextu64b max => (max, 0, 0)
  | .nextu64r min max => (min, max, 0)
  | .nexti64 => (0, 0, 0)
  | .nextf64 => (0, 0, 0)
  | .nextbytes count => (count, 0, 0)
  | .init seed buf fresh => (seed, buf, fresh)
  | .ldstate cursor buf fresh => (cursor, buf, fresh)

/-- The command the assembler writes for an instruction: `H = zext_64(OPC)`, then the operand words
(30_encoding.md R60). -/
def encode (i : Instr) : Command :=
  commandOf ((opcode i).setWidth 64) (operandWords i).1 (operandWords i).2.1 (operandWords i).2.2

/-- The command whose low `nbits` bits are those of `w`, numbered as the opcode table numbers them
(bit 0 is bit 0 of H), and whose other bits are zero. The block has no byte order to apply: a command
is one 256-bit pattern (30_encoding.md R50; log entry 12). -/
def tableCommand (nbits w : Nat) : Command := BitVec.ofNat 256 (w % 2 ^ nbits)

/-- The instruction the decoder reads from `tableCommand nbits w`; none where it refuses. -/
def decodeTableWord (nbits w : Nat) : Option Instr :=
  match decode (tableCommand nbits w) with
  | .ok i => some i
  | .error _ => none

end Sys2Proof
end

