-- ==== Sys2Proof/Machine/HostPort.lean ====
section
/-! DEFINITION. What the block does with one act of the host (spec/70_reset_and_hazards.md R157), and the same machine
under any parameters (spec/00_scope.md R5: "A model of the block takes exactly these parameters as arguments"). -/

namespace Sys2Proof.Machine

/-- A command as the block receives it: decode H, then run the command, or answer ILLEGAL_COMMAND and change no
state (30_encoding.md R54, R55, R58; 60_exceptions.md R133). -/
def performCommand (run : Instr → State → Answer) (c : Command) (s : State) : Answer :=
  match decode c with
  | .ok i => run i s
  | .error _ => raiseError .illegalCommand s

/-- One act of the host (70_reset_and_hazards.md R157). -/
def performAct (run : Instr → State → Answer) (act : HostAct) (s : State) : Answer :=
  match act with
  | .command c => performCommand run c s
  | .stateRead n => readPort n s
  | .reset => hostReset s

/-- Take the host's next act and perform it. With nothing presented the block keeps its state, with no time limit
(60_exceptions.md R143; log entry 9). -/
def stepUsing (run : Instr → State → Answer) (s : State) : Answer :=
  match s.pending with
  | [] => .next s
  | act :: rest => performAct run act { s with pending := rest }

/-- The state with a command presented as the host's very next act. -/
def State.present (s : State) (c : Command) : State := { s with pending := .command c :: s.pending }

/-- The commands under any parameters: `exec` is this at `hardware`. -/
def execWith (P : Params) (i : Instr) (s : State) : Answer :=
  match i with
  | .mulhi x y => execMulhi x y s
  | .asi64 u => execAsi64 u s
  | .asu64 v => execAsu64 v s
  | .nextn n => nextnWith P n s
  | .nextu64 => nextu64With P s
  | .nextu64b max => nextu64bWith P max s
  | .nextu64r min max => nextu64rWith P min max s
  | .nexti64 => nexti64With P s
  | .nextf64 => nextf64With P s
  | .nextbytes count => nextbytesWith P count s
  | .init seed buf fresh => initWith P seed buf fresh s
  | .ldstate cursor buf fresh => execLdstate cursor buf fresh s

end Sys2Proof.Machine
end

