-- ==== Sys2Proof/Machine/Step.lean ====
section
/-! DEFINITION. One step: the host's next act, performed whole (spec/70_reset_and_hazards.md R155, R157). -/

namespace Sys2Proof.Machine

/-- One step of this hardware. -/
def step (s : State) : Host.Outcome State Fault Refusal := stepUsing exec s

/-- One step of the block under any parameters; `step` is this at `hardware`. -/
def stepWith (P : Params) (s : State) : Host.Outcome State Fault Refusal := stepUsing (execWith P) s

/-- `s` with the command whose low `nbits` bits are `w` presented as the host's very next act: the block fetches
nothing, so this stands for the host presenting it (10_state.md R22; log entry 11). -/
def State.withFetchWord (s : State) (nbits w : Nat) : State := s.present (tableCommand nbits w)

end Sys2Proof.Machine
end

