-- ==== Sys2Proof/Machine/Assembler.lean ====
section
/-! DEFINITION. The assembler: one line of text to one command (spec/30_encoding.md R59, R60, R61). Text is a list of
characters. What R59 leaves open of the text (white space, letter case, the spelling of a literal, which error is named) is log entry 15;
negative literals are log entry 16, `-0` is log entry 20, and a line without a command is log entry 21. -/

namespace Sys2Proof.Machine

/-- The mnemonics of 30_encoding.md R52 and R59. -/
inductive Mnemonic where
  | mulhi | asi64 | asu64 | nextn | nextu64 | nextu64b | nextu64r | nexti64 | nextf64 | nextbytes | init | ldstate
  deriving DecidableEq, Repr

/-- Why a line does not assemble (30_encoding.md R59). R59 knows an assembly error and no kinds of it; the kinds, and which is given
where a line has several faults, are log entry 15. -/
inductive AsmError where
  /-- the first word is no mnemonic of R52 -/
  | unknownMnemonic
  /-- an operand is no integer literal -/
  | badLiteral
  /-- the line has another number of operands than its form -/
  | wrongOperandCount
  /-- an operand literal does not fit its operand -/
  | literalOutOfRange
  deriving DecidableEq, Repr

/-- A line with its operands read as integers. -/
structure AsmLine where
  mnemonic : Mnemonic
  operands : List Int
  deriving DecidableEq, Repr

/-- How a command reads an operand, as far as the literal's range goes (30_encoding.md R53, R59). -/
inductive OperandKind where
  /-- `uint64` or bit pattern: [0, 2^64) -/
  | unsigned
  /-- `sint64`: [-2^63, 2^64) -/
  | signed
  deriving DecidableEq, Repr

/-- Whether a literal fits its operand: `[0, 2^64)`, and `[-2^63, 2^63)` or `[0, 2^64)` for `sint64`
(30_encoding.md R59). -/
def literalFits (k : OperandKind) (v : Int) : Bool :=
  match k with
  | .unsigned => decide (0 ≤ v) && decide (v < 2 ^ 64)
  | .signed => (decide (-2 ^ 63 ≤ v) && decide (v < 2 ^ 63)) || (decide (0 ≤ v) && decide (v < 2 ^ 64))

/-- The operands of each form, in the order A, B, C (30_encoding.md R53, R59). -/
def operandKinds : Mnemonic → List OperandKind
  | .mulhi => [.unsigned, .unsigned]
  | .asi64 => [.unsigned]
  | .asu64 => [.signed]
  | .nextn => [.unsigned]
  | .nextu64 => []
  | .nextu64b => [.unsigned]
  | .nextu64r => [.unsigned, .unsigned]
  | .nexti64 => []
  | .nextf64 => []
  | .nextbytes => [.signed]
  | .init => [.signed, .unsigned, .unsigned]
  | .ldstate => [.unsigned, .unsigned, .unsigned]

/-- The two pseudo-instructions: `INIT seed` is `INIT seed, seed, 64` and `INIT seed, buf` is `INIT seed, buf, 64`
(30_encoding.md R61). Every other line stays as it is. -/
def expandPseudo (l : AsmLine) : AsmLine :=
  match l.mnemonic, l.operands with
  | .init, [seed] => ⟨.init, [seed, seed, 64]⟩
  | .init, [seed, buf] => ⟨.init, [seed, buf, 64]⟩
  | _, _ => l

/-- Whether every literal fits the operand it stands for. -/
def literalsFit (kinds : List OperandKind) (values : List Int) : Bool :=
  (List.zipWith literalFits kinds values).all id

/-- The command of a line whose literals fit: each literal as the pattern `pat` of it (00_scope.md R7;
30_encoding.md R59). -/
def instrOf (m : Mnemonic) (words : List Word) : Option Instr :=
  match m, words with
  | .mulhi, [x, y] => some (.mulhi x y)
  | .asi64, [u] => some (.asi64 u)
  | .asu64, [i] => some (.asu64 i)
  | .nextn, [n] => some (.nextn n)
  | .nextu64, [] => some .nextu64
  | .nextu64b, [max] => some (.nextu64b max)
  | .nextu64r, [min, max] => some (.nextu64r min max)
  | .nexti64, [] => some .nexti64
  | .nextf64, [] => some .nextf64
  | .nextbytes, [count] => some (.nextbytes count)
  | .init, [seed, buf, fresh] => some (.init seed buf fresh)
  | .ldstate, [cursor, buf, fresh] => some (.ldstate cursor buf fresh)
  | _, _ => none

/-- Assemble a line: expand, check the number of operands and their ranges, and build the command
(30_encoding.md R59, R61). -/
def assembleLine (line : AsmLine) : Except AsmError Instr :=
  let l := expandPseudo line
  match instrOf l.mnemonic (l.operands.map pat) with
  | none => .error .wrongOperandCount
  | some i => if literalsFit (operandKinds l.mnemonic) l.operands then .ok i else .error .literalOutOfRange

/-- The mnemonics as text (30_encoding.md R52). -/
def mnemonicText : Mnemonic → List Char
  | .mulhi => ['M', 'U', 'L', 'H', 'I']
  | .asi64 => ['A', 'S', 'I', '6', '4']
  | .asu64 => ['A', 'S', 'U', '6', '4']
  | .nextn => ['N', 'E', 'X', 'T', 'N']
  | .nextu64 => ['N', 'E', 'X', 'T', 'U', '6', '4']
  | .nextu64b => ['N', 'E', 'X', 'T', 'U', '6', '4', 'B']
  | .nextu64r => ['N', 'E', 'X', 'T', 'U', '6', '4', 'R']
  | .nexti64 => ['N', 'E', 'X', 'T', 'I', '6', '4']
  | .nextf64 => ['N', 'E', 'X', 'T', 'F', '6', '4']
  | .nextbytes => ['N', 'E', 'X', 'T', 'B', 'Y', 'T', 'E', 'S']
  | .init => ['I', 'N', 'I', 'T']
  | .ldstate => ['L', 'D', 'S', 'T', 'A', 'T', 'E']

/-- Every mnemonic. -/
def allMnemonics : List Mnemonic :=
  [.mulhi, .asi64, .asu64, .nextn, .nextu64, .nextu64b, .nextu64r, .nexti64, .nextf64, .nextbytes, .init, .ldstate]

/-- The mnemonic a word of text names. -/
def mnemonicOf (word : List Char) : Option Mnemonic := allMnemonics.find? (fun m => mnemonicText m == word)

/-- White space inside a line (PRESUMED, log entry 15). -/
def isBlank (c : Char) : Bool := c == ' ' || c == '\t'

/-- A word without white space at its two ends. -/
def trim (cs : List Char) : List Char := ((cs.dropWhile isBlank).reverse.dropWhile isBlank).reverse

/-- A line without its comment: "Text after `;` is a comment" (30_encoding.md R59). -/
def stripComment (cs : List Char) : List Char := cs.takeWhile (· != ';')

/-- The parts between commas, in order (30_encoding.md R59). -/
def splitCommas : List Char → List (List Char)
  | [] => [[]]
  | c :: cs =>
    if c == ',' then [] :: splitCommas cs
    else
      match splitCommas cs with
      | [] => [[c]]
      | part :: parts => (c :: part) :: parts

/-- The value of a decimal digit. -/
def decimalDigit (c : Char) : Option Nat :=
  if 48 ≤ c.toNat ∧ c.toNat ≤ 57 then some (c.toNat - 48) else none

/-- The value of a hexadecimal digit, in either case (PRESUMED, log entry 15). -/
def hexDigit (c : Char) : Option Nat :=
  if 48 ≤ c.toNat ∧ c.toNat ≤ 57 then some (c.toNat - 48)
  else if 65 ≤ c.toNat ∧ c.toNat ≤ 70 then some (c.toNat - 55)
  else if 97 ≤ c.toNat ∧ c.toNat ≤ 102 then some (c.toNat - 87)
  else none

/-- The rest of a decimal literal, after the digits of `acc`. -/
def decimalRest : Nat → List Char → Option Nat
  | acc, [] => some acc
  | acc, c :: cs =>
    match decimalDigit c with
    | some d => decimalRest (10 * acc + d) cs
    | none => none

/-- A decimal literal: one digit or more, leading zeros among them (PRESUMED, log entry 15). -/
def decimalLiteral : List Char → Option Nat
  | [] => none
  | cs => decimalRest 0 cs

/-- The rest of a hexadecimal literal, after the digits of `acc`. `afterDigit` says whether the last character was a digit: a
`_` stands between two digits (log entry 15). -/
def hexRest (acc : Nat) (afterDigit : Bool) : List Char → Option Nat
  | [] => if afterDigit then some acc else none
  | c :: cs =>
    if c == '_' then if afterDigit then hexRest acc false cs else none
    else
      match hexDigit c with
      | some d => hexRest (16 * acc + d) true cs
      | none => none

/-- An integer literal: decimal, `0x` and hexadecimal, or `-` and decimal (30_encoding.md R59). `-0` is read as 0, which fits every
operand: R59 gives the form `-k` to `sint64` operands and does not speak of `-0` (DESIGN CHOICE, log entry 20). -/
def integerLiteral : List Char → Option Int
  | '0' :: 'x' :: cs => (hexRest 0 false cs).map Int.ofNat
  | '-' :: cs => (decimalLiteral cs).map (fun k => -(k : Int))
  | cs => (decimalLiteral cs).map Int.ofNat

/-- The operands after the mnemonic; none at all where only white space follows. -/
def parseOperands (cs : List Char) : Option (List Int) :=
  if (trim cs).isEmpty then some [] else (splitCommas cs).mapM (fun part => integerLiteral (trim part))

/-- A line of text read as a mnemonic and its operands (30_encoding.md R59). A line that holds nothing but white space and a comment,
of which R59 does not speak, is `none`: no command and no error (DESIGN CHOICE, log entry 21). -/
def parseLine (text : List Char) : Except AsmError (Option AsmLine) :=
  let body := trim (stripComment text)
  if body.isEmpty then .ok none
  else
    match mnemonicOf (body.takeWhile (fun c => !isBlank c)) with
    | none => .error .unknownMnemonic
    | some m =>
      match parseOperands (body.dropWhile (fun c => !isBlank c)) with
      | none => .error .badLiteral
      | some operands => .ok (some ⟨m, operands⟩)

/-- Assemble a line of text into the 256-bit command (30_encoding.md R59, R60, R61), or into none where the line holds no
command (log entry 21). -/
def assemble (text : List Char) : Except AsmError (Option Command) :=
  match parseLine text with
  | .error e => .error e
  | .ok none => .ok none
  | .ok (some l) =>
    match assembleLine l with
    | .error e => .error e
    | .ok i => .ok (some (encode i))

end Sys2Proof.Machine
end

