-- ==== Sys2Proof/WellFormed.lean ====
section
/-! DEFINITION. Which operand values are legal: the "legal values" column of spec/30_encoding.md R53.

The machine runs ill-formed commands too: they get the error response of 60_exceptions.md R132. No meaning
uses these checks; the meanings make their own, from the pseudocode of each rule, so the two can be compared. -/

namespace Sys2Proof

/-- 30_encoding.md R53, column "legal values", row by row; the parameter gives `WS.seedValid`. -/
def Instr.wellFormed (P : Params) : Instr → Bool
  | .mulhi _ _ => true
  | .asi64 _ => true
  | .asu64 _ => true
  | .nextn n => decide (1 ≤ n.toNat) && decide (n.toNat ≤ 64)
  | .nextu64 => true
  | .nextu64b max => decide (1 ≤ max.toNat)
  | .nextu64r min max => decide (min.toNat < max.toNat)
  | .nexti64 => true
  | .nextf64 => true
  | .nextbytes count => decide (0 ≤ count.toInt)
  | .init seed _ fresh => P.seedValid seed && decide (fresh.toNat ≤ 64)
  | .ldstate _ _ fresh => decide (fresh.toNat ≤ 64)

end Sys2Proof
end

