-- ==== Sys2Proof/Safety.lean ====
section
/-! DEFINITION. The terms statements about the block are made in: the invariant, the bit stream (spec/10_state.md R29), the
block seen as a machine over its stream alone, runs of commands, counts of draws, literal ranges, and the value of a binary64 pattern. Nothing
in the machine uses these. -/

namespace Sys2Proof.Safety

open Sys2Proof.Machine

/-- FRESH holds a value in [0, 64] (10_state.md R26). -/
abbrev FreshInRange (s : State) : Prop := s.fresh.toNat ≤ 64

/-- The four elements of two states are equal (10_state.md R20). -/
abbrev SameElements (s t : State) : Prop :=
  t.valid = s.valid ∧ t.cursor = s.cursor ∧ t.buffer = s.buffer ∧ t.fresh = s.fresh

/-- Two states that differ at most in the bits of BUFFER at and above FRESH, and in what the host has still to present and
what has passed over the ports (10_state.md R24, R31, R32). -/
abbrev SameFreshBits (s t : State) : Prop :=
  t.valid = s.valid ∧ t.cursor = s.cursor ∧ t.fresh = s.fresh ∧
    t.buffer &&& mask t.fresh.toNat = s.buffer &&& mask s.fresh.toNat

/-! ### The stream -/

/-- The cursor after `k` draws from cursor `c`. -/
def cursorAfter (P : Params) : Nat → Word → Word
  | 0, c => c
  | k + 1, c => cursorAfter P k (P.next c).2

/-- The raw word draw number `k` (from 0) gives, drawing from cursor `c` on. -/
def rawWord (P : Params) (c : Word) (k : Nat) : Word := (P.next (cursorAfter P k c)).1

/-- The word-source transaction of draw number `k`, drawing from cursor `c` on (20_memory.md R41). -/
def drawEvent (P : Params) (c : Word) (k : Nat) : PortEvent :=
  .draw (cursorAfter P k c) (rawWord P c k) (cursorAfter P (k + 1) c)

/-- The first `k` word-source transactions from cursor `c` on, in order. -/
def drawEvents (P : Params) (c : Word) (k : Nat) : List PortEvent := (List.range k).map (drawEvent P c)

/-- Bit `k` of the stream from CURSOR = `c`, BUFFER = `b`, FRESH = `f` on: the bits `b[0], ..., b[f-1]`, then each raw word in draw
order from bit 0 to bit 63 (10_state.md R24, R29; 20_memory.md R43). -/
def streamFrom (P : Params) (c b : Word) (f k : Nat) : Bool :=
  if k < f then b.getLsbD k else (rawWord P c ((k - f) / 64)).getLsbD ((k - f) % 64)

/-- Bit `k` of the stream from state `s` on. -/
def streamBit (P : Params) (s : State) (k : Nat) : Bool := streamFrom P s.cursor s.buffer s.fresh.toNat k

/-- The first `n` bits of a stream as a number, the first bit lowest (20_memory.md R43). -/
def streamNat (σ : Nat → Bool) : Nat → Nat
  | 0 => 0
  | n + 1 => streamNat σ n + (σ n).toNat * 2 ^ n

/-- What is left of a stream after its first `n` bits. -/
def streamDrop (σ : Nat → Bool) (n : Nat) : Nat → Bool := fun k => σ (n + k)

/-- Bits 0 to `n - 1` of a bit field, lowest first. -/
def fieldBits (n : Nat) (r : Word) : List Bool := (List.range n).map r.getLsbD

/-- `Take` called once for each width, in order: the result fields and the last state. -/
def takeMany (P : Params) : List Nat → State → List Word × State
  | [], s => ([], s)
  | n :: ns, s => ((take P n s).1 :: (takeMany P ns (take P n s).2).1, (takeMany P ns (take P n s).2).2)

/-- The number of draws that taking `n` bits makes when `f` bits are fresh: as many words as the missing bits need. -/
def drawsNeeded (f n : Nat) : Nat := (n - f + 63) / 64

/-! ### Commands -/

/-- The generator commands (00_scope.md R13). -/
def isGenerator : Instr → Bool
  | .mulhi _ _ => false
  | .asi64 _ => false
  | .asu64 _ => false
  | .nextn _ => true
  | .nextu64 => true
  | .nextu64b _ => true
  | .nextu64r _ _ => true
  | .nexti64 => true
  | .nextf64 => true
  | .nextbytes _ => true
  | .init _ _ _ => false
  | .ldstate _ _ _ => false

/-- The state commands (00_scope.md R13). -/
def isStateCommand : Instr → Bool
  | .mulhi _ _ => false
  | .asi64 _ => false
  | .asu64 _ => false
  | .nextn _ => false
  | .nextu64 => false
  | .nextu64b _ => false
  | .nextu64r _ _ => false
  | .nexti64 => false
  | .nextf64 => false
  | .nextbytes _ => false
  | .init _ _ _ => true
  | .ldstate _ _ _ => true

/-- Whether R52's column "VALUE type" gives the command a VALUE. -/
def hasValue : Instr → Bool
  | .mulhi _ _ => true
  | .asi64 _ => true
  | .asu64 _ => true
  | .nextn _ => true
  | .nextu64 => true
  | .nextu64b _ => true
  | .nextu64r _ _ => true
  | .nexti64 => true
  | .nextf64 => true
  | .nextbytes _ => false
  | .init _ _ _ => false
  | .ldstate _ _ _ => false

/-- The widths of the `Take` calls a generator command makes when it is accepted, in order (42_bitfield.md R92). -/
def takeWidths : Instr → List Nat
  | .mulhi _ _ => []
  | .asi64 _ => []
  | .asu64 _ => []
  | .nextn n => [n.toNat]
  | .nextu64 => [64]
  | .nextu64b _ => [64]
  | .nextu64r _ _ => [64]
  | .nexti64 => [64]
  | .nextf64 => [64]
  | .nextbytes count => List.replicate count.toNat 8
  | .init _ _ _ => []
  | .ldstate _ _ _ => []

/-- How many bits of the stream an accepted command takes (10_state.md R29; 42_bitfield.md R92). -/
def bitsTaken (i : Instr) : Nat := (takeWidths i).sum

/-- BUFFER after `n` bits have been taken, FRESH then being `f'`: with no draw the old BUFFER shifted past those bits, else what
is left of the last word drawn, "the unconsumed remainder of whichever word was most recently drawn"
(42_bitfield.md R90, R92). -/
def bufferLeft (P : Params) (n : Nat) (s : State) (f' : Nat) : Nat :=
  match drawsNeeded s.fresh.toNat n with
  | 0 => s.buffer.toNat / 2 ^ n
  | k + 1 => (rawWord P s.cursor k).toNat / 2 ^ (64 - f')

/-- What a command that takes `n` bits of the stream and answers `r` leaves: VALID and the host's script as they were, the draws
those bits needed and then the one response on the ports, CURSOR past those draws, FRESH, BUFFER, and the stream going on
with the bit after the last one taken (42_bitfield.md R90, R92; 20_memory.md R42, R47). -/
abbrev Consumed (P : Params) (n : Nat) (s : State) (r : Response) (t : State) : Prop :=
  t.valid = s.valid ∧ t.pending = s.pending ∧
    t.cursor = cursorAfter P (drawsNeeded s.fresh.toNat n) s.cursor ∧
    t.trace = s.trace ++ drawEvents P s.cursor (drawsNeeded s.fresh.toNat n) ++ [.response r] ∧
    t.fresh.toNat = s.fresh.toNat + 64 * drawsNeeded s.fresh.toNat n - n ∧
    t.buffer.toNat = bufferLeft P n s t.fresh.toNat ∧
    ∀ k, streamBit P t k = streamBit P s (n + k)

/-- The STATUS of an operand error, by command (60_exceptions.md R132). -/
def operandError : Instr → Status
  | .mulhi _ _ => .outOfRange
  | .asi64 _ => .outOfRange
  | .asu64 _ => .outOfRange
  | .nextn _ => .outOfRange
  | .nextu64 => .outOfRange
  | .nextu64b _ => .outOfRange
  | .nextu64r _ _ => .invalidArgument
  | .nexti64 => .outOfRange
  | .nextf64 => .outOfRange
  | .nextbytes _ => .outOfRange
  | .init _ _ _ => .outOfRange
  | .ldstate _ _ _ => .outOfRange

/-- The STATUS a decoded command ends with: an operand error first, then NOT_INITIALIZED, else OK
(60_exceptions.md R132, R133). -/
def expectedStatus (P : Params) (i : Instr) (valid : Bool) : Status :=
  if i.wellFormed P = false then operandError i
  else if isGenerator i && !valid then .notInitialized
  else .ok

/-- The response of a command that is accepted, from its operands and the stream `σ` alone
(41_widemul.md, 42_bitfield.md, 43_generators.md, 40_state_commands.md). -/
def acceptedResponse (P : Params) (i : Instr) (σ : Nat → Bool) : Response :=
  match i with
  | .mulhi x y => ⟨.ok, BitVec.ofNat 64 (x.toNat * y.toNat / 2 ^ 64), []⟩
  | .asi64 u => ⟨.ok, u, []⟩
  | .asu64 v => ⟨.ok, v, []⟩
  | .nextn n => ⟨.ok, BitVec.ofNat 64 (streamNat σ n.toNat), []⟩
  | .nextu64 => ⟨.ok, BitVec.ofNat 64 (streamNat σ 64), []⟩
  | .nextu64b max => ⟨.ok, BitVec.ofNat 64 (streamNat σ 64 * max.toNat / 2 ^ 64), []⟩
  | .nextu64r min max => ⟨.ok, BitVec.ofNat 64 (min.toNat + streamNat σ 64 * (max.toNat - min.toNat) / 2 ^ 64), []⟩
  | .nexti64 => ⟨.ok, BitVec.ofNat 64 (streamNat σ 64), []⟩
  | .nextf64 => ⟨.ok, unitF64 P.rounding (BitVec.ofNat 64 (streamNat σ 64)), []⟩
  | .nextbytes count =>
    ⟨.ok, 0, (List.range count.toNat).map (fun k => BitVec.ofNat 8 (streamNat (streamDrop σ (8 * k)) 8))⟩
  | .init _ _ _ => ⟨.ok, 0, []⟩
  | .ldstate _ _ _ => ⟨.ok, 0, []⟩

/-- The response of a decoded command, from its operands, VALID and the stream alone. -/
def expectedResponse (P : Params) (i : Instr) (valid : Bool) (σ : Nat → Bool) : Response :=
  if expectedStatus P i valid = .ok then acceptedResponse P i σ else ⟨expectedStatus P i valid, 0, []⟩

/-- VALID after a decoded command: 1 after an accepted INIT or LDSTATE, else as it was (10_state.md R28). -/
def validAfter (P : Params) (i : Instr) (valid : Bool) : Bool :=
  valid || (isStateCommand i && decide (expectedStatus P i valid = .ok))

/-- The stream after an accepted command, from its operands and the stream `σ` before it: what a generator has not taken, `σ` itself
after a stateless command, and the stream of the loaded elements after INIT and LDSTATE (10_state.md R28, R29). -/
def acceptedStream (P : Params) (i : Instr) (σ : Nat → Bool) : Nat → Bool :=
  match i with
  | .mulhi _ _ => σ
  | .asi64 _ => σ
  | .asu64 _ => σ
  | .nextn n => streamDrop σ n.toNat
  | .nextu64 => streamDrop σ 64
  | .nextu64b _ => streamDrop σ 64
  | .nextu64r _ _ => streamDrop σ 64
  | .nexti64 => streamDrop σ 64
  | .nextf64 => streamDrop σ 64
  | .nextbytes count => streamDrop σ (8 * count.toNat)
  | .init seed buf fresh => streamFrom P seed buf fresh.toNat
  | .ldstate cursor buf fresh => streamFrom P cursor buf fresh.toNat

/-- The stream after a decoded command: `σ` itself where the command fails (60_exceptions.md R131). -/
def streamAfter (P : Params) (i : Instr) (valid : Bool) (σ : Nat → Bool) : Nat → Bool :=
  if expectedStatus P i valid = .ok then acceptedStream P i σ else σ

/-- Issue commands first to last (70_reset_and_hazards.md R156). -/
def runCommands (run : Instr → State → Answer) : List Instr → State → Answer
  | [], s => .next s
  | i :: is, s =>
    match run i s with
    | .next t => runCommands run is t
    | .fault r => .fault r
    | .refused r => .refused r

/-- A command with every operand word the instruction does not read set to zero (30_encoding.md R56, R60). -/
def clearUnread (c : Command) : Instr → Command
  | .mulhi _ _ => commandOf c.h c.a c.b 0
  | .asi64 _ => commandOf c.h c.a 0 0
  | .asu64 _ => commandOf c.h c.a 0 0
  | .nextn _ => commandOf c.h c.a 0 0
  | .nextu64 => commandOf c.h 0 0 0
  | .nextu64b _ => commandOf c.h c.a 0 0
  | .nextu64r _ _ => commandOf c.h c.a c.b 0
  | .nexti64 => commandOf c.h 0 0 0
  | .nextf64 => commandOf c.h 0 0 0
  | .nextbytes _ => commandOf c.h c.a 0 0
  | .init _ _ _ => commandOf c.h c.a c.b c.c
  | .ldstate _ _ _ => commandOf c.h c.a c.b c.c

/-- The OPC values 30_encoding.md R52 lists. -/
def listedOpcodes : List (BitVec 8) :=
  [0x01, 0x02, 0x03, 0x10, 0x11, 0x12, 0x13, 0x14, 0x15, 0x16, 0x20, 0x21]

/-- Whether a literal fits an operand read so: `[0, 2^64)` for `uint64` and bit patterns, `[-2^63, 2^63)` or `[0, 2^64)`, that is
`[-2^63, 2^64)`, for `sint64` (30_encoding.md R59). -/
abbrev FitsOperand (k : OperandKind) (v : Int) : Prop :=
  (k = .unsigned → 0 ≤ v ∧ v < 2 ^ 64) ∧ (k = .signed → -2 ^ 63 ≤ v ∧ v < 2 ^ 64)

/-! ### Counting draws -/

/-- Whether an event is a word-source transaction. -/
def isDraw : PortEvent → Bool
  | .draw _ _ _ => true
  | .response _ => false
  | .stateValue _ _ => false

/-- FRESH after `k` bytes have been taken, starting from FRESH = `f` (42_bitfield.md R90 with n = 8). -/
def freshAfterBytes (f : Nat) : Nat → Nat
  | 0 => f
  | k + 1 => if freshAfterBytes f k < 8 then freshAfterBytes f k + 56 else freshAfterBytes f k - 8

/-- The number of draws 20_memory.md R42 gives a decoded command, from the state before it. -/
def drawsMade (P : Params) (i : Instr) (s : State) : Nat :=
  if expectedStatus P i s.valid = .ok then
    match i with
    | .mulhi _ _ => 0
    | .asi64 _ => 0
    | .asu64 _ => 0
    | .nextn n => if s.fresh.toNat < n.toNat then 1 else 0
    | .nextu64 => if s.fresh.toNat < 64 then 1 else 0
    | .nextu64b _ => if s.fresh.toNat < 64 then 1 else 0
    | .nextu64r _ _ => if s.fresh.toNat < 64 then 1 else 0
    | .nexti64 => if s.fresh.toNat < 64 then 1 else 0
    | .nextf64 => if s.fresh.toNat < 64 then 1 else 0
    | .nextbytes count =>
      ((List.range count.toNat).filter (fun k => freshAfterBytes s.fresh.toNat k < 8)).length
    | .init _ _ _ => 0
    | .ldstate _ _ _ => 0
  else 0

/-! ### binary64 -/

/-- The biased exponent, bits [62:52] (43_generators.md R104). -/
def f64Exponent (b : Word) : Nat := b.toNat / 2 ^ 52 % 2 ^ 11

/-- The fraction, bits [51:0] (43_generators.md R104). -/
def f64Fraction (b : Word) : Nat := b.toNat % 2 ^ 52

/-- A positive normal number: sign 0 and `1 <= E <= 2046` (43_generators.md R104). -/
abbrev IsPositiveNormal (b : Word) : Prop :=
  b.getLsbD 63 = false ∧ 1 ≤ f64Exponent b ∧ f64Exponent b ≤ 2046

/-- The patterns R104 gives a value that is not negative: +0.0 and the positive normal numbers. -/
abbrev IsF64 (b : Word) : Prop := b = 0 ∨ IsPositiveNormal b

/-- The value of +0.0 or of a positive normal pattern: `(1 + fraction / 2^52) * 2^(E - 1023)` (43_generators.md R104). -/
def f64Value (b : Word) : ℚ :=
  if b = 0 then 0 else (1 + (f64Fraction b : ℚ) / 2 ^ 52) * (2 : ℚ) ^ ((f64Exponent b : ℤ) - 1023)

/-- The real number `v / 2^64` (43_generators.md R104). -/
def unitValue (v : Word) : ℚ := (v.toNat : ℚ) / 2 ^ 64

end Sys2Proof.Safety
end

