-- ==== Sys2Proof/Certificates/Slice0/Obligations.lean ====
section
/-! DEFINITION. The statements for the provers. "The same four elements" and the other terms are those of
Sys2Proof/Safety.lean; `exec` and `step` are this hardware, `execWith P` the block under parameters `P`. -/

open Sys2Proof Sys2Proof.Machine Sys2Proof.Safety

/-! ## Encoding and decoding (30_encoding.md) -/

/-- Each header of R52's opcode map, with any operand words, decodes to its command with the operands R52 lists. -/
def Obligations.HeaderTableDecodes : Prop :=
  ∀ a b c : Word,
    decode (commandOf 0x0000000000000001 a b c) = .ok (.mulhi a b) ∧
    decode (commandOf 0x0000000000000002 a b c) = .ok (.asi64 a) ∧
    decode (commandOf 0x0000000000000003 a b c) = .ok (.asu64 a) ∧
    decode (commandOf 0x0000000000000010 a b c) = .ok (.nextn a) ∧
    decode (commandOf 0x0000000000000011 a b c) = .ok .nextu64 ∧
    decode (commandOf 0x0000000000000012 a b c) = .ok (.nextu64b a) ∧
    decode (commandOf 0x0000000000000013 a b c) = .ok (.nextu64r a b) ∧
    decode (commandOf 0x0000000000000014 a b c) = .ok .nexti64 ∧
    decode (commandOf 0x0000000000000015 a b c) = .ok .nextf64 ∧
    decode (commandOf 0x0000000000000016 a b c) = .ok (.nextbytes a) ∧
    decode (commandOf 0x0000000000000020 a b c) = .ok (.init a b c) ∧
    decode (commandOf 0x0000000000000021 a b c) = .ok (.ldstate a b c)

/-- R58: decoding is total and reads H alone. A command decodes exactly when RSVD is zero and OPC is listed, then to the command of
that OPC, and a command with the same H decodes to the same OPC. -/
def Obligations.DecoderReadsHeaderAlone : Prop :=
  ∀ c : Command,
    (headerRsvd c.h ≠ 0 ∨ headerOpc c.h ∉ listedOpcodes → ∃ e, decode c = .error e) ∧
    (headerRsvd c.h = 0 ∧ headerOpc c.h ∈ listedOpcodes →
      ∃ i, decode c = .ok i ∧ opcode i = headerOpc c.h ∧
        ∀ c' : Command, c'.h = c.h → ∃ i', decode c' = .ok i' ∧ opcode i' = opcode i)

/-- Decoding the encoding of any instruction, with any operands, gives it back. -/
def Obligations.DecodeEncodeRoundTrip : Prop := ∀ i : Instr, decode (encode i) = .ok i

/-- A command that decodes is the encoding of its instruction up to the words the instruction does not read. -/
def Obligations.EncodeDecodeClearsUnreadWords : Prop :=
  ∀ (c : Command) (i : Instr), decode c = .ok i → encode i = clearUnread c i

/-- R56: words a command does not read change neither the response nor the state, and the assembler writes zero there. -/
def Obligations.UnreadWordsChangeNothing : Prop :=
  (∀ (s : State) (rest : List HostAct) (c c' : Command) (i : Instr),
    decode c = .ok i → clearUnread c' i = clearUnread c i →
      step { s with pending := .command c' :: rest } = step { s with pending := .command c :: rest }) ∧
  ∀ i : Instr, clearUnread (encode i) i = encode i

/-- R54: a header with RSVD not zero is answered ILLEGAL_COMMAND, whatever OPC holds, and changes no state. -/
def Obligations.ReservedHeaderIsIllegal : Prop :=
  ∀ (s : State) (rest : List HostAct) (c : Command),
    s.pending = .command c :: rest → headerRsvd c.h ≠ 0 →
      step s = .next { s with pending := rest, trace := s.trace ++ [.response ⟨.illegalCommand, 0, []⟩] }

/-- R55: a header whose OPC is not listed is answered ILLEGAL_COMMAND and changes no state. There are 244 such OPC values, the
ranges R55 names. -/
def Obligations.UnlistedOpcodeIsIllegal : Prop :=
  (∀ (s : State) (rest : List HostAct) (c : Command),
    s.pending = .command c :: rest → headerOpc c.h ∉ listedOpcodes →
      step s = .next { s with pending := rest, trace := s.trace ++ [.response ⟨.illegalCommand, 0, []⟩] }) ∧
  (∀ o : BitVec 8, o ∉ listedOpcodes ↔
    o.toNat = 0x00 ∨ (0x04 ≤ o.toNat ∧ o.toNat ≤ 0x0F) ∨ (0x17 ≤ o.toNat ∧ o.toNat ≤ 0x1F) ∨ 0x22 ≤ o.toNat) ∧
  ((List.range 256).filter (fun k => BitVec.ofNat 8 k ∉ listedOpcodes)).length = 244

/-- From R61, R59 and R53: the two pseudo-instructions assemble as their expansions; with literals that fit, to INIT with those words.
That the absent `buf` is the seed is R61's own choice ("This spec's choice, `buf = seed`"). That a negative seed may be
written is the model's reading of R53, log entry 16 (DEDUCED). -/
def Obligations.InitPseudoInstructionsExpand : Prop :=
  ∀ seed buf : Int,
    assembleLine ⟨.init, [seed]⟩ = assembleLine ⟨.init, [seed, seed, 64]⟩ ∧
    assembleLine ⟨.init, [seed, buf]⟩ = assembleLine ⟨.init, [seed, buf, 64]⟩ ∧
    (0 ≤ seed → seed < 2 ^ 64 → assembleLine ⟨.init, [seed]⟩ = .ok (.init (pat seed) (pat seed) 64)) ∧
    (-2 ^ 63 ≤ seed → seed < 2 ^ 64 → 0 ≤ buf → buf < 2 ^ 64 →
      assembleLine ⟨.init, [seed, buf]⟩ = .ok (.init (pat seed) (pat buf) 64))

/-- The literal ranges of R59 for every command and operand: with as many literals as the form has operands, a line assembles exactly
when each literal fits its operand, and then to the command whose words are the literals' patterns; otherwise a literal is out of range. A
line with another number of literals that is no form of R61 is an error. NEXTN, NEXTBYTES and ASU64 are written out. Which operands
`operandKinds` reads as sint64, and with it that a negative literal for a uint64 operand is an error although R91 writes
`NEXTN -1` for the word it names, is the model's reading of R53 and R59, log entry 16 (DEDUCED). -/
def Obligations.LiteralsOutOfRangeAreErrors : Prop :=
  (∀ (m : Mnemonic) (l : List Int), l.length = (operandKinds m).length →
    (List.Forall₂ FitsOperand (operandKinds m) l →
      ∃ i, instrOf m (l.map pat) = some i ∧ assembleLine ⟨m, l⟩ = .ok i) ∧
    (¬ List.Forall₂ FitsOperand (operandKinds m) l → assembleLine ⟨m, l⟩ = .error .literalOutOfRange)) ∧
  (∀ (m : Mnemonic) (l : List Int), l.length ≠ (operandKinds m).length →
    ¬ (m = .init ∧ (l.length = 1 ∨ l.length = 2)) → assembleLine ⟨m, l⟩ = .error .wrongOperandCount) ∧
  ∀ k : Int,
    (0 ≤ k ∧ k < 2 ^ 64 → assembleLine ⟨.nextn, [k]⟩ = .ok (.nextn (pat k))) ∧
    (¬ (0 ≤ k ∧ k < 2 ^ 64) → assembleLine ⟨.nextn, [k]⟩ = .error .literalOutOfRange) ∧
    (-2 ^ 63 ≤ k ∧ k < 2 ^ 64 →
      assembleLine ⟨.nextbytes, [k]⟩ = .ok (.nextbytes (pat k)) ∧ assembleLine ⟨.asu64, [k]⟩ = .ok (.asu64 (pat k))) ∧
    (¬ (-2 ^ 63 ≤ k ∧ k < 2 ^ 64) →
      assembleLine ⟨.nextbytes, [k]⟩ = .error .literalOutOfRange ∧ assembleLine ⟨.asu64, [k]⟩ = .error .literalOutOfRange)

/-! ## The step and the host's acts (70_reset_and_hazards.md R157) -/

/-- A command that decodes is run: the step is `exec` of the instruction, on the state without the act. The block adds nothing else
(no pc, no delay slot). -/
def Obligations.StepRunsDecodedCommand : Prop :=
  ∀ (s : State) (rest : List HostAct) (c : Command) (i : Instr),
    s.pending = .command c :: rest → decode c = .ok i → step s = exec i { s with pending := rest }

/-- With nothing presented, the block keeps its state (the model's choice of log entry 9, after R143). -/
def Obligations.IdleBlockKeepsState : Prop := ∀ s : State, s.pending = [] → step s = .next s

/-- Each step takes exactly one act off the host's script and only adds to what has passed over the ports. This is about the
model's own fields `pending` and `trace` and so rests on its choices (DESIGN CHOICE): log entry 1 (one act a step), log entry 2 (the record only
grows) and log entry 9 (an empty script stays empty). -/
def Obligations.StepPerformsOneAct : Prop :=
  ∀ s t : State, step s = .next t → t.pending = s.pending.tail ∧ ∃ es, t.trace = s.trace ++ es

/-- A step stops in one way only: a state-read port read of CURSOR, BUFFER or FRESH while VALID = 0. Every other act, any of the
2^256 commands among them, has a next state. -/
def Obligations.StepStopsOnlyOnInvalidRead : Prop :=
  ∀ s : State,
    ((∃ (n : Fin 4) (rest : List HostAct), s.pending = .stateRead n :: rest ∧ n ≠ 0 ∧ s.valid = false) →
      ∃ e, step s = .fault (.readWhileInvalid e)) ∧
    ((¬ ∃ (n : Fin 4) (rest : List HostAct), s.pending = .stateRead n :: rest ∧ n ≠ 0 ∧ s.valid = false) →
      ∃ t, step s = .next t)

/-- R27: a state read answers the element of that number, zero-extended to 64 bits, and changes nothing. While VALID = 0 a
read of VALID answers 0 and a read of CURSOR, BUFFER or FRESH faults. -/
def Obligations.StateReadAnswersElement : Prop :=
  ∀ (s : State) (n : Fin 4) (rest : List HostAct), s.pending = .stateRead n :: rest →
    (s.valid = true →
      (n = 0 → step s = .next { s with pending := rest, trace := s.trace ++ [.stateValue .valid 1] }) ∧
      (n = 1 → step s = .next { s with pending := rest, trace := s.trace ++ [.stateValue .cursor s.cursor] }) ∧
      (n = 2 → step s = .next { s with pending := rest, trace := s.trace ++ [.stateValue .buffer s.buffer] }) ∧
      (n = 3 → step s = .next { s with pending := rest,
                                        trace := s.trace ++ [.stateValue .fresh (BitVec.ofNat 64 s.fresh.toNat)] })) ∧
    (s.valid = false →
      (n = 0 → step s = .next { s with pending := rest, trace := s.trace ++ [.stateValue .valid 0] }) ∧
      (n = 1 → step s = .fault (.readWhileInvalid .cursor)) ∧
      (n = 2 → step s = .fault (.readWhileInvalid .buffer)) ∧
      (n = 3 → step s = .fault (.readWhileInvalid .fresh)))

/-- R150: reset writes VALID <- 0, draws nothing and returns nothing; after it a read of CURSOR, BUFFER or FRESH gives no
value. -/
def Obligations.ResetClearsValid : Prop :=
  ∀ (s : State) (rest : List HostAct), s.pending = .reset :: rest →
    ∃ t, step s = .next t ∧ t.valid = false ∧ t.trace = s.trace ∧ t.pending = rest ∧
      ∀ n : Fin 4, n ≠ 0 → ∃ e, step { t with pending := .stateRead n :: rest } = .fault (.readWhileInvalid e)

/-- R33: in the state after reset VALID is 0, and CURSOR, BUFFER and FRESH hold no value a read could give. -/
def Obligations.ResetStateIsUninitialised : Prop :=
  State.reset.valid = false ∧
    step { State.reset with pending := [.stateRead 0] } = .next { State.reset with trace := [.stateValue .valid 0] } ∧
    step { State.reset with pending := [.stateRead 1] } = .fault (.readWhileInvalid .cursor) ∧
    step { State.reset with pending := [.stateRead 2] } = .fault (.readWhileInvalid .buffer) ∧
    step { State.reset with pending := [.stateRead 3] } = .fault (.readWhileInvalid .fresh)

/-- R57: every command, accepted or illegal, gets exactly one response, after the draws it makes; VALUE is 0 where STATUS is not OK or
the command has no VALUE type in R52, and BYTES is empty where STATUS is not OK or the command is not NEXTBYTES. -/
def Obligations.EveryCommandGetsOneResponse : Prop :=
  ∀ (s : State) (rest : List HostAct) (c : Command), s.pending = .command c :: rest →
    ∃ (t : State) (es : List PortEvent) (r : Response),
      step s = .next t ∧ t.trace = s.trace ++ es ++ [.response r] ∧ es.all isDraw = true ∧
        (r.status ≠ .ok → r.value = 0 ∧ r.bytes = []) ∧
        (∀ i, decode c = .ok i → hasValue i = false → r.value = 0) ∧
        ((∀ count, decode c ≠ .ok (.nextbytes count)) → r.bytes = [])

/-- R130: the codes of STATUS. No two STATUS values share a code, and no value has any other code. -/
def Obligations.StatusCodesAsTabled : Prop :=
  statusCode .ok = 0x00 ∧ statusCode .outOfRange = 0x01 ∧ statusCode .invalidArgument = 0x02 ∧
    statusCode .notInitialized = 0x03 ∧ statusCode .illegalCommand = 0x04 ∧
    (∀ a b : Status, statusCode a = statusCode b → a = b) ∧ ∀ a : Status, (statusCode a).toNat ≤ 0x04

/-- This hardware is the parametric block at the parameter values R5 gives: RTZ, the default seed check, and an open word
source. -/
def Obligations.HardwareIsParametricBlock : Prop :=
  (∀ s, step s = stepWith hardware s) ∧ (∀ i s, exec i s = execWith hardware i s) ∧
    hardware.rounding = .rtz ∧ (∀ x : Word, hardware.seedValid x = true ↔ 0 < sint64 x) ∧
    hardware.next = Config.wsNext

/-! ## WideMultiply and reinterpretation (41_widemul.md) -/

/-- R80: MULHI answers floor(x * y / 2^64) of the exact product and changes nothing else, whether VALID is 0 or 1. -/
def Obligations.MulhiAnswersHighHalf : Prop :=
  ∀ (x y : Word) (s : State),
    ∃ v : Word, v.toNat = x.toNat * y.toNat / 2 ^ 64 ∧
      exec (.mulhi x y) s = .next { s with trace := s.trace ++ [.response ⟨.ok, v, []⟩] }

/-- R83: the partial-product form gives the same result for all inputs. -/
def Obligations.MulhiPartialProductsAgree : Prop :=
  ∀ (x y : Word) (s : State),
    exec (.mulhi x y) s = .next { s with trace := s.trace ++ [.response ⟨.ok, mulHighPartial x y, []⟩] }

/-- Corner cases of R80: MULHI is commutative, never exceeds 2^64 - 2, and is 0 where an operand is 0 or 1. -/
def Obligations.MulhiCornerCases : Prop :=
  ∀ (x y : Word) (s : State),
    exec (.mulhi x y) s = exec (.mulhi y x) s ∧ (mulHigh x y).toNat ≤ 2 ^ 64 - 2 ∧
      mulHigh x 0 = 0 ∧ mulHigh 0 y = 0 ∧ mulHigh x 1 = 0

/-- R81 and R82: ASI64 and ASU64 answer their operand's bits unchanged and change nothing else, whether VALID is 0 or 1. -/
def Obligations.ReinterpretationKeepsBits : Prop :=
  ∀ (u : Word) (s : State),
    exec (.asi64 u) s = .next { s with trace := s.trace ++ [.response ⟨.ok, u, []⟩] } ∧
    exec (.asu64 u) s = .next { s with trace := s.trace ++ [.response ⟨.ok, u, []⟩] }

/-- R84: ASU64 of ASI64 gives back every pattern, ASI64 of ASU64 every signed value, and sint64 is a bijection with
inverse pat. -/
def Obligations.ReinterpretationRoundTrips : Prop :=
  (∀ (u : Word) (s : State), ∃ (t : State) (v : Word),
    exec (.asi64 u) s = .next t ∧ t.trace = s.trace ++ [.response ⟨.ok, v, []⟩] ∧
      exec (.asu64 v) t = .next { t with trace := t.trace ++ [.response ⟨.ok, u, []⟩] }) ∧
  (∀ (i : Int) (s : State), -2 ^ 63 ≤ i → i < 2 ^ 63 → ∃ (t : State) (v w : Word),
    exec (.asu64 (pat i)) s = .next t ∧ t.trace = s.trace ++ [.response ⟨.ok, v, []⟩] ∧
      exec (.asi64 v) t = .next { t with trace := t.trace ++ [.response ⟨.ok, w, []⟩] } ∧ sint64 w = i) ∧
  (∀ u : Word, -2 ^ 63 ≤ sint64 u ∧ sint64 u < 2 ^ 63 ∧ pat (sint64 u) = u)

/-! ## The stream: Take and NEXTN (42_bitfield.md, 10_state.md) -/

/-- R90, through NEXTN: with `f` bits fresh, `n <= f` takes the low `n` bits of BUFFER and shifts it, and `n > f` makes one draw and puts
the word's low `n - f` bits above the fresh bits. Whole numbers stand for the bit operations. -/
def Obligations.NextnTakesField : Prop :=
  ∀ (n : Word) (s : State), s.valid = true → 1 ≤ n.toNat → n.toNat ≤ 64 →
    (n.toNat ≤ s.fresh.toNat →
      exec (.nextn n) s = .next { s with
        buffer := BitVec.ofNat 64 (s.buffer.toNat / 2 ^ n.toNat)
        fresh := BitVec.ofNat 7 (s.fresh.toNat - n.toNat)
        trace := s.trace ++ [.response ⟨.ok, BitVec.ofNat 64 (s.buffer.toNat % 2 ^ n.toNat), []⟩] }) ∧
    (s.fresh.toNat < n.toNat →
      exec (.nextn n) s = .next { s with
        cursor := (Config.wsNext s.cursor).2
        buffer := BitVec.ofNat 64 ((Config.wsNext s.cursor).1.toNat / 2 ^ (n.toNat - s.fresh.toNat))
        fresh := BitVec.ofNat 7 (64 - (n.toNat - s.fresh.toNat))
        trace := s.trace ++
          [.draw s.cursor (Config.wsNext s.cursor).1 (Config.wsNext s.cursor).2,
            .response ⟨.ok, BitVec.ofNat 64 (s.buffer.toNat % 2 ^ s.fresh.toNat +
              (Config.wsNext s.cursor).1.toNat % 2 ^ (n.toNat - s.fresh.toNat) * 2 ^ s.fresh.toNat), []⟩] })

/-- R91: NEXTN answers OUT_OF_RANGE for a width of 0 or above 64, whatever VALID is; NOT_INITIALIZED for a legal width while VALID = 0; and
otherwise the next `n` bits of the stream. -/
def Obligations.NextnAnswersStreamBits : Prop :=
  ∀ (n : Word) (s : State),
    (n.toNat < 1 ∨ 64 < n.toNat →
      exec (.nextn n) s = .next { s with trace := s.trace ++ [.response ⟨.outOfRange, 0, []⟩] }) ∧
    (1 ≤ n.toNat → n.toNat ≤ 64 → s.valid = false →
      exec (.nextn n) s = .next { s with trace := s.trace ++ [.response ⟨.notInitialized, 0, []⟩] }) ∧
    (1 ≤ n.toNat → n.toNat ≤ 64 → s.valid = true → FreshInRange s →
      ∃ t, exec (.nextn n) s = .next t ∧
        Consumed hardware n.toNat s ⟨.ok, BitVec.ofNat 64 (streamNat (streamBit hardware s) n.toNat), []⟩ t)

/-- The stream invariant for any run of `Take` calls and every word source: the fields, joined in order, are the first bits of the
stream, which is BUFFER's fresh bits and then the raw words in draw order; the draws are exactly the words those bits need, in
order; and the stream goes on where the run ended. -/
def Obligations.TakesFollowTheStream : Prop :=
  ∀ (P : Params) (ns : List Nat) (s : State), FreshInRange s → (∀ n ∈ ns, 1 ≤ n ∧ n ≤ 64) →
    (List.zipWith fieldBits ns (takeMany P ns s).1).flatten = (List.range ns.sum).map (streamBit P s) ∧
    (takeMany P ns s).2.trace = s.trace ++ drawEvents P s.cursor (drawsNeeded s.fresh.toNat ns.sum) ∧
    (takeMany P ns s).2.cursor = cursorAfter P (drawsNeeded s.fresh.toNat ns.sum) s.cursor ∧
    ∀ k, streamBit P (takeMany P ns s).2 k = streamBit P s (ns.sum + k)

/-- R29, the stream invariant of a run of generator commands, for every word source. From a state with VALID = 1, BUFFER = b and
FRESH = f, such as INIT or LDSTATE leaves, any list of generator commands reaches the four elements that the commands' own `Take` calls reach, a
failing command making none; the fields of those calls, joined in order, are the first bits of b[0] to b[f-1] followed by the raw words drawn;
the words drawn are exactly the ones needed, each once and in order; and the stream goes on where the run ended. -/
def Obligations.StreamInvariantOverCommands : Prop :=
  ∀ (P : Params) (is : List Instr) (s : State), s.valid = true → FreshInRange s → (∀ i ∈ is, isGenerator i = true) →
    ∃ (t : State) (ws : List Nat),
      runCommands (execWith P) is s = .next t ∧
      ws = (is.filter (fun i => i.wellFormed P)).flatMap takeWidths ∧
      SameElements (takeMany P ws s).2 t ∧
      (List.zipWith fieldBits ws (takeMany P ws s).1).flatten = (List.range ws.sum).map (streamBit P s) ∧
      t.trace.filter isDraw = s.trace.filter isDraw ++ drawEvents P s.cursor (drawsNeeded s.fresh.toNat ws.sum) ∧
      ∀ k, streamBit P t k = streamBit P s (ws.sum + k)

/-- The block is a machine over VALID and its bit stream: under any parameters, each decoded command's response, and VALID and the stream
after it, are functions of its operands and of VALID and the stream before it alone. An accepted generator also leaves CURSOR, BUFFER, FRESH
and the draws as taking exactly its bits does; every other command draws nothing; and a stateless or failing command leaves all
four elements as they were. -/
def Obligations.BlockRefinesStreamMachine : Prop :=
  ∀ (P : Params) (i : Instr) (s : State), FreshInRange s →
    ∃ t, execWith P i s = .next t ∧ FreshInRange t ∧ t.pending = s.pending ∧
      t.valid = validAfter P i s.valid ∧
      (∀ k, streamBit P t k = streamAfter P i s.valid (streamBit P s) k) ∧
      (isGenerator i = true → expectedStatus P i s.valid = .ok →
        Consumed P (bitsTaken i) s (expectedResponse P i s.valid (streamBit P s)) t) ∧
      (isGenerator i = false ∨ expectedStatus P i s.valid ≠ .ok →
        t.trace = s.trace ++ [.response (expectedResponse P i s.valid (streamBit P s))]) ∧
      (isGenerator i = false ∧ isStateCommand i = false ∨ expectedStatus P i s.valid ≠ .ok → SameElements s t)

/-- R24, R31 and R32: the bits of BUFFER at and above FRESH, and all that has passed over the ports before, never reach a response or
a draw: two states that agree on the rest answer alike and agree afterwards. -/
def Obligations.StaleBitsAreUnobservable : Prop :=
  ∀ (P : Params) (i : Instr) (s s' : State), SameFreshBits s s' →
    ∃ (t t' : State) (es : List PortEvent),
      execWith P i s = .next t ∧ execWith P i s' = .next t' ∧
        t.trace = s.trace ++ es ∧ t'.trace = s'.trace ++ es ∧ SameFreshBits t t'

/-- R25: after INIT and LDSTATE BUFFER is operand B unchanged; after NEXTN, which shifts right by `n` or by `n - f`, the bits the shift
freed are zero. -/
def Obligations.BufferAboveFresh : Prop :=
  (∀ (c b f : Word) (s : State), f.toNat ≤ 64 →
    ∃ t, exec (.ldstate c b f) s = .next t ∧ t.buffer = b) ∧
  (∀ (c b f : Word) (s : State), 0 < sint64 c → f.toNat ≤ 64 →
    ∃ t, exec (.init c b f) s = .next t ∧ t.buffer = b) ∧
  (∀ (n : Word) (s : State), s.valid = true → 1 ≤ n.toNat → n.toNat ≤ 64 →
    ∃ t, exec (.nextn n) s = .next t ∧
      (n.toNat ≤ s.fresh.toNat → ∀ k, 64 - n.toNat ≤ k → t.buffer.getLsbD k = false) ∧
      (s.fresh.toNat < n.toNat → ∀ k, 64 - (n.toNat - s.fresh.toNat) ≤ k → t.buffer.getLsbD k = false))

/-- R26: every step keeps FRESH in [0, 64], and INIT and LDSTATE reject a FRESH operand above 64. -/
def Obligations.StepKeepsFreshInRange : Prop :=
  (∀ s t : State, FreshInRange s → step s = .next t → FreshInRange t) ∧
  ∀ (a b f : Word) (s : State), 64 < f.toNat →
    exec (.init a b f) s = .next { s with trace := s.trace ++ [.response ⟨.outOfRange, 0, []⟩] } ∧
    exec (.ldstate a b f) s = .next { s with trace := s.trace ++ [.response ⟨.outOfRange, 0, []⟩] }

/-- FRESH is in [0, 64] in the model's reset state (whose FRESH is the choice of log entry 3). -/
def Obligations.ResetFreshInRange : Prop := FreshInRange State.reset

/-- R42: the exact number of word-source transactions of each decoded command. -/
def Obligations.DrawCountsAsTabled : Prop :=
  ∀ (i : Instr) (s : State), FreshInRange s →
    ∃ t, exec i s = .next t ∧ t.trace.countP isDraw = s.trace.countP isDraw + drawsMade hardware i s

/-! ## The derived generators (43_generators.md) -/

/-- R100: NEXTU64 answers NOT_INITIALIZED while VALID = 0, otherwise the next 64 stream bits, and is NEXTN 64. -/
def Obligations.Nextu64AnswersStreamBits : Prop :=
  ∀ s : State,
    (s.valid = false → exec .nextu64 s = .next { s with trace := s.trace ++ [.response ⟨.notInitialized, 0, []⟩] }) ∧
    (s.valid = true → FreshInRange s →
      ∃ t, exec .nextu64 s = .next t ∧
        Consumed hardware 64 s ⟨.ok, BitVec.ofNat 64 (streamNat (streamBit hardware s) 64), []⟩ t) ∧
    exec .nextu64 s = exec (.nextn 64) s

/-- R101: NEXTU64B answers OUT_OF_RANGE for a bound of 0, then NOT_INITIALIZED while VALID = 0, otherwise floor(v * m / 2^64) of the
next 64 stream bits v, which is below m. -/
def Obligations.Nextu64bScalesStreamBits : Prop :=
  ∀ (max : Word) (s : State),
    (max.toNat = 0 → exec (.nextu64b max) s = .next { s with trace := s.trace ++ [.response ⟨.outOfRange, 0, []⟩] }) ∧
    (max.toNat ≠ 0 → s.valid = false →
      exec (.nextu64b max) s = .next { s with trace := s.trace ++ [.response ⟨.notInitialized, 0, []⟩] }) ∧
    (max.toNat ≠ 0 → s.valid = true → FreshInRange s →
      ∃ (t : State) (v : Word), exec (.nextu64b max) s = .next t ∧
        v.toNat = streamNat (streamBit hardware s) 64 * max.toNat / 2 ^ 64 ∧ v.toNat < max.toNat ∧
        Consumed hardware 64 s ⟨.ok, v, []⟩ t)

/-- Corner case of R101: for the bound 2^k the result is the top k bits of the stream bits, v >> (64 - k). -/
def Obligations.Nextu64bPowerOfTwoBound : Prop :=
  ∀ (k : Nat) (s : State), k < 64 → s.valid = true → FreshInRange s →
    ∃ t, exec (.nextu64b (BitVec.ofNat 64 (2 ^ k))) s = .next t ∧
      Consumed hardware 64 s
        ⟨.ok, shiftRight (BitVec.ofNat 64 (streamNat (streamBit hardware s) 64)) (64 - k), []⟩ t

/-- R102: NEXTU64R answers INVALID_ARGUMENT unless max > min unsigned, then NOT_INITIALIZED while VALID = 0, otherwise
lo + floor(v * (hi - lo) / 2^64), an exact sum in [lo, hi); with lo = 0 it is NEXTU64B. -/
def Obligations.Nextu64rScalesStreamBits : Prop :=
  ∀ (lo hi : Word) (s : State),
    (hi.toNat ≤ lo.toNat →
      exec (.nextu64r lo hi) s = .next { s with trace := s.trace ++ [.response ⟨.invalidArgument, 0, []⟩] }) ∧
    (lo.toNat < hi.toNat → s.valid = false →
      exec (.nextu64r lo hi) s = .next { s with trace := s.trace ++ [.response ⟨.notInitialized, 0, []⟩] }) ∧
    (lo.toNat < hi.toNat → s.valid = true → FreshInRange s →
      ∃ (t : State) (v : Word), exec (.nextu64r lo hi) s = .next t ∧
        v.toNat = lo.toNat + streamNat (streamBit hardware s) 64 * (hi.toNat - lo.toNat) / 2 ^ 64 ∧
        lo.toNat ≤ v.toNat ∧ v.toNat < hi.toNat ∧ Consumed hardware 64 s ⟨.ok, v, []⟩ t) ∧
    (0 < hi.toNat → exec (.nextu64r 0 hi) s = exec (.nextu64b hi) s)

/-- R103: NEXTI64 answers NOT_INITIALIZED while VALID = 0, otherwise the next 64 stream bits; read as sint64 they are the
two's-complement value of those bits. -/
def Obligations.Nexti64AnswersSignedBits : Prop :=
  ∀ s : State,
    (s.valid = false → exec .nexti64 s = .next { s with trace := s.trace ++ [.response ⟨.notInitialized, 0, []⟩] }) ∧
    (s.valid = true → FreshInRange s →
      ∃ (t : State) (v : Word), exec .nexti64 s = .next t ∧ Consumed hardware 64 s ⟨.ok, v, []⟩ t ∧
        v.toNat = streamNat (streamBit hardware s) 64 ∧
        (streamBit hardware s 63 = false → sint64 v = (streamNat (streamBit hardware s) 64 : Int)) ∧
        (streamBit hardware s 63 = true → sint64 v = (streamNat (streamBit hardware s) 64 : Int) - 2 ^ 64))

/-- R105: NEXTF64 answers NOT_INITIALIZED while VALID = 0, otherwise UnitF64 of the next 64 stream bits under RTZ: +0.0 or a positive
normal number, in [0, 1 - 2^-53]. The range is a consequence of R104, in its binary64 layout, which R104 marks as general knowledge (log
entry 17, PRESUMED). -/
def Obligations.Nextf64AnswersUnitDouble : Prop :=
  ∀ s : State,
    (s.valid = false → exec .nextf64 s = .next { s with trace := s.trace ++ [.response ⟨.notInitialized, 0, []⟩] }) ∧
    (s.valid = true → FreshInRange s →
      ∃ (t : State) (b : Word), exec .nextf64 s = .next t ∧ Consumed hardware 64 s ⟨.ok, b, []⟩ t ∧
        b = unitF64 .rtz (BitVec.ofNat 64 (streamNat (streamBit hardware s) 64)) ∧
        IsF64 b ∧ 0 ≤ f64Value b ∧ f64Value b ≤ 1 - 1 / 2 ^ 53)

/-- R104 under RTZ: UnitF64(v) is the largest binary64 value not greater than v / 2^64. The binary64 layout is log entry 17
(PRESUMED). -/
def Obligations.UnitF64TowardZeroIsLargestBelow : Prop :=
  ∀ v : Word,
    IsF64 (unitF64 .rtz v) ∧ f64Value (unitF64 .rtz v) ≤ unitValue v ∧
      ∀ b : Word, IsF64 b → f64Value b ≤ unitValue v → f64Value b ≤ f64Value (unitF64 .rtz v)

/-- R104 under RNE: UnitF64(v) is a binary64 value nearest v / 2^64, and where another value is as near its significand is even. The
binary64 layout is log entry 17 (PRESUMED). -/
def Obligations.UnitF64NearestTiesToEven : Prop :=
  ∀ v : Word,
    IsF64 (unitF64 .rne v) ∧
      (∀ b : Word, IsF64 b → |f64Value (unitF64 .rne v) - unitValue v| ≤ |f64Value b - unitValue v|) ∧
      (∀ b : Word, IsF64 b → f64Value b ≠ f64Value (unitF64 .rne v) →
        |f64Value b - unitValue v| = |f64Value (unitF64 .rne v) - unitValue v| →
          f64Fraction (unitF64 .rne v) % 2 = 0)

/-- Both roundings of R104 are exact below 2^53, and RNE gives 1.0 exactly for the 1024 largest inputs. The binary64
layout is log entry 17 (PRESUMED). -/
def Obligations.UnitF64ExactAndOne : Prop :=
  (∀ (mode : F64Rounding) (v : Word), v.toNat < 2 ^ 53 → f64Value (unitF64 mode v) = unitValue v) ∧
    ∀ v : Word, unitF64 .rne v = 0x3FF0000000000000 ↔ 2 ^ 64 - 1024 ≤ v.toNat

/-- R106: NEXTBYTES answers OUT_OF_RANGE for a negative count, then NOT_INITIALIZED while VALID = 0 even for a count of 0, otherwise
exactly `count` bytes, byte k being stream bits 8k to 8k + 7, lowest first. -/
def Obligations.NextbytesAnswersStreamBytes : Prop :=
  ∀ (count : Word) (s : State),
    (sint64 count < 0 →
      exec (.nextbytes count) s = .next { s with trace := s.trace ++ [.response ⟨.outOfRange, 0, []⟩] }) ∧
    (0 ≤ sint64 count → s.valid = false →
      exec (.nextbytes count) s = .next { s with trace := s.trace ++ [.response ⟨.notInitialized, 0, []⟩] }) ∧
    (0 ≤ sint64 count → s.valid = true → FreshInRange s →
      ∃ (t : State) (l : List Byte), exec (.nextbytes count) s = .next t ∧
        Consumed hardware (8 * count.toNat) s ⟨.ok, 0, l⟩ t ∧ l.length = count.toNat ∧
        ∀ k b, l[k]? = some b → ∀ j, j < 8 → b.getLsbD j = streamBit hardware s (8 * k + j))

/-- First consequence of R43: with FRESH = 0 and the next raw word `w`, eight bytes are `w[7:0]` up to `w[63:56]`. -/
def Obligations.EightBytesOfAWordAreLittleEndian : Prop :=
  ∀ s : State, s.valid = true → s.fresh = 0 →
    ∃ t : State, exec (.nextbytes 8) s = .next t ∧
      t.trace = s.trace ++
        [.draw s.cursor (Config.wsNext s.cursor).1 (Config.wsNext s.cursor).2,
          .response ⟨.ok, 0, (List.range 8).map (fun k => (Config.wsNext s.cursor).1.extractLsb' (8 * k) 8)⟩]

/-- R107: for every bound m each result is answered for exactly floor(2^64 / m) or ceil(2^64 / m) of the 2^64 stream values. -/
def Obligations.RangeResultCounts : Prop :=
  ∀ m r : Nat, r < m → m < 2 ^ 64 →
    ((Finset.range (2 ^ 64)).filter (fun v => scaleHigh v m = r)).card = 2 ^ 64 / m ∨
    ((Finset.range (2 ^ 64)).filter (fun v => scaleHigh v m = r)).card = (2 ^ 64 + m - 1) / m

/-! ## The state commands (40_state_commands.md) -/

/-- R70 on this hardware: INIT writes all four elements and draws nothing where sint64(seed) > 0 and fresh <= 64, whatever VALID was, and
otherwise answers OUT_OF_RANGE and leaves everything as it was. -/
def Obligations.InitBuildsState : Prop :=
  ∀ (seed buf fresh : Word) (s : State),
    (0 < sint64 seed → fresh.toNat ≤ 64 →
      exec (.init seed buf fresh) s = .next { s with
        valid := true, cursor := seed, buffer := buf, fresh := BitVec.ofNat 7 fresh.toNat
        trace := s.trace ++ [.response ⟨.ok, 0, []⟩] }) ∧
    (¬ (0 < sint64 seed ∧ fresh.toNat ≤ 64) →
      exec (.init seed buf fresh) s = .next { s with trace := s.trace ++ [.response ⟨.outOfRange, 0, []⟩] })

/-- R70 under any word source: INIT accepts exactly the seeds the source's `WS.seedValid` accepts, and never seed 0. -/
def Obligations.InitFollowsSeedValid : Prop :=
  ∀ (P : Params) (seed buf fresh : Word) (s : State),
    (P.seedValid seed = true → fresh.toNat ≤ 64 →
      execWith P (.init seed buf fresh) s = .next { s with
        valid := true, cursor := seed, buffer := buf, fresh := BitVec.ofNat 7 fresh.toNat
        trace := s.trace ++ [.response ⟨.ok, 0, []⟩] }) ∧
    (P.seedValid seed = false →
      execWith P (.init seed buf fresh) s = .next { s with trace := s.trace ++ [.response ⟨.outOfRange, 0, []⟩] }) ∧
    execWith P (.init 0 buf fresh) s = .next { s with trace := s.trace ++ [.response ⟨.outOfRange, 0, []⟩] }

/-- R71: LDSTATE writes all four elements and draws nothing where fresh <= 64, for every cursor, and otherwise answers OUT_OF_RANGE and
leaves everything as it was. -/
def Obligations.LdstateRestoresState : Prop :=
  ∀ (cursor buf fresh : Word) (s : State),
    (fresh.toNat ≤ 64 →
      exec (.ldstate cursor buf fresh) s = .next { s with
        valid := true, cursor := cursor, buffer := buf, fresh := BitVec.ofNat 7 fresh.toNat
        trace := s.trace ++ [.response ⟨.ok, 0, []⟩] }) ∧
    (64 < fresh.toNat →
      exec (.ldstate cursor buf fresh) s = .next { s with trace := s.trace ++ [.response ⟨.outOfRange, 0, []⟩] })

/-- R34: LDSTATE, in any state `u`, of the values the state-read port gives for a valid state `s` restores `s`: the four elements are
equal, and any commands issued afterwards give the same draws, the same responses and the same four elements as issued in `s`. -/
def Obligations.SavedStateContinuesAlike : Prop :=
  ∀ (s u : State), s.valid = true → FreshInRange s →
    ∃ r : State,
      exec (.ldstate (readElement .cursor s) (readElement .buffer s) (readElement .fresh s)) u = .next r ∧
        SameElements s r ∧
        ∀ is : List Instr, ∃ (t t' : State) (es : List PortEvent),
          runCommands exec is s = .next t ∧ runCommands exec is r = .next t' ∧
            t.trace = s.trace ++ es ∧ t'.trace = r.trace ++ es ∧ SameElements t t'

/-- R152: after `INIT seed, 0, 0` the first 64 stream bits are `WS.next(seed)`'s word; after `INIT seed, seed, 64` they are the seed
itself and nothing is drawn. -/
def Obligations.InitFormsStartTheStream : Prop :=
  ∀ (seed : Word) (s : State), 0 < sint64 seed →
    (∃ t u : State, exec (.init seed 0 0) s = .next t ∧ exec .nextu64 t = .next u ∧
      u.trace = t.trace ++ [.draw seed (Config.wsNext seed).1 (Config.wsNext seed).2,
        .response ⟨.ok, (Config.wsNext seed).1, []⟩]) ∧
    (∃ t u : State, exec (.init seed seed 64) s = .next t ∧ exec .nextu64 t = .next u ∧
      u.trace = t.trace ++ [.response ⟨.ok, seed, []⟩])

/-! ## Errors and frames (60_exceptions.md, 10_state.md) -/

/-- R132 and R133: every decoded command has a next state, and its one response's STATUS is the one the table and the priority
give: the operand error first, then NOT_INITIALIZED for a generator while VALID = 0, else OK. Every illegal header gives
ILLEGAL_COMMAND before any of these. -/
def Obligations.StatusesAsTabled : Prop :=
  (∀ (i : Instr) (s : State),
    ∃ (t : State) (es : List PortEvent) (r : Response),
      exec i s = .next t ∧ t.trace = s.trace ++ es ++ [.response r] ∧ es.all isDraw = true ∧
        r.status = expectedStatus hardware i s.valid) ∧
  (∀ (s : State) (rest : List HostAct) (c : Command),
    s.pending = .command c :: rest → headerRsvd c.h ≠ 0 ∨ headerOpc c.h ∉ listedOpcodes →
      step s = .next { s with pending := rest, trace := s.trace ++ [.response ⟨.illegalCommand, 0, []⟩] })

/-- R131: a command whose response is not OK writes no state and draws nothing: all that changes is that its response, with
VALUE 0 and no BYTES, has been given. -/
def Obligations.ErrorsArePrecise : Prop :=
  ∀ (s : State) (rest : List HostAct) (c : Command) (t : State) (r : Response),
    s.pending = .command c :: rest → step s = .next t → t.trace.getLast? = some (.response r) → r.status ≠ .ok →
      r.value = 0 ∧ r.bytes = [] ∧ t = { s with pending := rest, trace := s.trace ++ [.response r] }

/-- R28's table as a frame: which commands leave which elements alone, on every path to a next state; and no command touches the
host's script. -/
def Obligations.CommandFrame : Prop :=
  ∀ (i : Instr) (s t : State), exec i s = .next t →
    t.pending = s.pending ∧
    ((∀ x y, i = .mulhi x y → SameElements s t) ∧ (∀ u, i = .asi64 u → SameElements s t) ∧
      (∀ u, i = .asu64 u → SameElements s t)) ∧
    (isGenerator i = true → t.valid = s.valid) ∧
    (isGenerator i = true → s.valid = false → SameElements s t) ∧
    (∀ a b c, i = .init a b c ∨ i = .ldstate a b c →
      SameElements s t ∨ (t.valid = true ∧ t.cursor = a ∧ t.buffer = b ∧ t.fresh.toNat = c.toNat))

/-- Only reset clears VALID, and only an accepted INIT (0 < sint64(seed), fresh <= 64) or LDSTATE (fresh <= 64) sets it. -/
def Obligations.ValidChangesOnlyByResetAndStateCommands : Prop :=
  ∀ s t : State, step s = .next t →
    (s.valid = true → t.valid = false → ∃ rest, s.pending = .reset :: rest) ∧
    (s.valid = false → t.valid = true →
      ∃ (c : Command) (rest : List HostAct) (a b f : Word), s.pending = .command c :: rest ∧ f.toNat ≤ 64 ∧
        (decode c = .ok (.init a b f) ∧ 0 < sint64 a ∨ decode c = .ok (.ldstate a b f)))

/-- R151: until an INIT or LDSTATE, a block with VALID = 0 answers every generator with legal operands NOT_INITIALIZED and stays as it
was, through any number of other commands. -/
def Obligations.GeneratorsFailUntilInitialised : Prop :=
  ∀ (is : List Instr) (s : State), s.valid = false →
    (∀ i ∈ is, ∀ a b c, i ≠ .init a b c ∧ i ≠ .ldstate a b c) →
      ∃ t, runCommands exec is s = .next t ∧ SameElements s t ∧
        ∀ i, isGenerator i = true → i.wellFormed hardware = true →
          exec i t = .next { t with trace := t.trace ++ [.response ⟨.notInitialized, 0, []⟩] }
end

