-- ==== Sys2Proof/Laws/Assembler.lean ====
section
/-! SUPPORT. What the assembler's checks accept (spec/30_encoding.md R59). -/

namespace Sys2Proof.Laws

open Sys2Proof.Machine Sys2Proof.Safety

/-- The check of one literal is R59's range for its operand. -/
theorem literalFits_iff (k : OperandKind) (v : Int) : literalFits k v = true ↔ FitsOperand k v := by
  cases k with
  | unsigned => simp [literalFits, FitsOperand]
  | signed => simp [literalFits, FitsOperand]; omega

/-- The check of a line's literals is the check of each, where there is one literal for each operand. -/
theorem literalsFit_iff {kinds : List OperandKind} {values : List Int} (h : values.length = kinds.length) :
    literalsFit kinds values = true ↔ List.Forall₂ FitsOperand kinds values := by
  induction kinds generalizing values with
  | nil =>
    cases values with
    | nil => simp [literalsFit]
    | cons v vs => simp at h
  | cons k ks ih =>
    cases values with
    | nil => simp at h
    | cons v vs =>
      have tail := ih (values := vs) (by simpa using h)
      rw [List.forall₂_cons, ← literalFits_iff, ← tail]
      simp [literalsFit]

end Sys2Proof.Laws
end

