-- ==== Sys2Proof/Laws/Decode.lean ====
section
/-! SUPPORT. Reading back the words of a command that was put together from them (spec/30_encoding.md R50). -/

namespace Sys2Proof.Laws

theorem commandOf_getLsbD (h a b c : Word) (i : Nat) :
    (commandOf h a b c).getLsbD i =
      if i < 64 then h.getLsbD i else if i < 128 then a.getLsbD (i - 64)
      else if i < 192 then b.getLsbD (i - 128) else c.getLsbD (i - 192) := by
  unfold commandOf
  simp only [BitVec.getLsbD_append]
  by_cases h1 : i < 64
  · simp [h1]
  · by_cases h2 : i < 128
    · have : i - 64 < 64 := by omega
      simp [h1, h2, this]
    · by_cases h3 : i < 192
      · have g1 : ¬ i - 64 < 64 := by omega
        have g2 : i - 64 - 64 < 64 := by omega
        have g3 : i - 64 - 64 = i - 128 := by omega
        simp [h1, h2, h3, g1, g3] ; omega
      · have g1 : ¬ i - 64 < 64 := by omega
        have g2 : ¬ i - 64 - 64 < 64 := by omega
        have g3 : i - 64 - 64 - 64 = i - 192 := by omega
        have g4 : ¬ i - 128 < 64 := by omega
        have g5 : i - 64 - 64 = i - 128 := by omega
        have g6 : i - 128 - 64 = i - 192 := by omega
        simp [h1, h2, h3, g1, g5, g4, g6]

@[simp] theorem commandOf_h (h a b c : Word) : Command.h (commandOf h a b c) = h := by
  ext i hi
  simp only [Command.h, BitVec.getElem_extractLsb', commandOf_getLsbD]
  simp [hi]

@[simp] theorem commandOf_a (h a b c : Word) : Command.a (commandOf h a b c) = a := by
  ext i hi
  have h1 : ¬ 64 + i < 64 := by omega
  have h2 : 64 + i < 128 := by omega
  simp only [Command.a, BitVec.getElem_extractLsb', commandOf_getLsbD]
  simp [h2, BitVec.getLsbD_eq_getElem hi]

@[simp] theorem commandOf_b (h a b c : Word) : Command.b (commandOf h a b c) = b := by
  ext i hi
  have h1 : ¬ 128 + i < 64 := by omega
  have h2 : ¬ 128 + i < 128 := by omega
  have h3 : 128 + i < 192 := by omega
  simp only [Command.b, BitVec.getElem_extractLsb', commandOf_getLsbD]
  simp [h1, h3, BitVec.getLsbD_eq_getElem hi]

@[simp] theorem commandOf_c (h a b c : Word) : Command.c (commandOf h a b c) = c := by
  ext i hi
  have h1 : ¬ 192 + i < 64 := by omega
  have h2 : ¬ 192 + i < 128 := by omega
  have h3 : ¬ 192 + i < 192 := by omega
  simp only [Command.c, BitVec.getElem_extractLsb', commandOf_getLsbD]
  simp [h1, h2, BitVec.getLsbD_eq_getElem hi]

/-- A command is the four words it is made of. -/
theorem commandOf_words (c : Command) : commandOf c.h c.a c.b c.c = c := by
  apply BitVec.eq_of_getLsbD_eq
  intro i hi
  have e : ∀ k, k ≤ i → k + (i - k) = i := fun k hk => by omega
  have w : ∀ k, k ≤ i → i < k + 64 → (c.extractLsb' k 64).getLsbD (i - k) = c.getLsbD i := by
    intro k h1 h2
    have g : i - k < 64 := by omega
    rw [BitVec.getLsbD_extractLsb', e k h1, decide_eq_true g, Bool.true_and]
  rw [commandOf_getLsbD]
  by_cases h1 : i < 64
  · rw [if_pos h1]; exact w 0 (by omega) (by omega)
  · rw [if_neg h1]
    by_cases h2 : i < 128
    · rw [if_pos h2]; exact w 64 (by omega) (by omega)
    · rw [if_neg h2]
      by_cases h3 : i < 192
      · rw [if_pos h3]; exact w 128 (by omega) (by omega)
      · rw [if_neg h3]; exact w 192 (by omega) (by omega)

@[simp] theorem headerOpc_setWidth (o : BitVec 8) : headerOpc (o.setWidth 64) = o := by
  ext i hi
  have : i < 64 := by omega
  simp [headerOpc, this, BitVec.getLsbD_eq_getElem hi]

@[simp] theorem headerRsvd_setWidth (o : BitVec 8) : headerRsvd (o.setWidth 64) = 0 := by
  ext i hi
  simp [headerRsvd]

@[simp] theorem encode_h (i : Instr) : (encode i).h = (opcode i).setWidth 64 := commandOf_h _ _ _ _

@[simp] theorem encode_a (i : Instr) : (encode i).a = (operandWords i).1 := commandOf_a _ _ _ _

@[simp] theorem encode_b (i : Instr) : (encode i).b = (operandWords i).2.1 := commandOf_b _ _ _ _

@[simp] theorem encode_c (i : Instr) : (encode i).c = (operandWords i).2.2 := commandOf_c _ _ _ _

end Sys2Proof.Laws
end

