-- ==== Sys2Proof/Laws/State.lean ====
section
/-! SUPPORT. What each named update of the state leaves in each field, one lemma a field, so that no proof unfolds a record
update. -/

namespace Sys2Proof.Machine

section emit
variable (s : State) (e : PortEvent)
@[simp] theorem State.emit_valid : (s.emit e).valid = s.valid := rfl
@[simp] theorem State.emit_cursor : (s.emit e).cursor = s.cursor := rfl
@[simp] theorem State.emit_buffer : (s.emit e).buffer = s.buffer := rfl
@[simp] theorem State.emit_fresh : (s.emit e).fresh = s.fresh := rfl
@[simp] theorem State.emit_pending : (s.emit e).pending = s.pending := rfl
@[simp] theorem State.emit_trace : (s.emit e).trace = s.trace ++ [e] := rfl
end emit

section setBits
variable (s : State) (b : Word) (f : BitVec 7)
@[simp] theorem State.setBits_valid : (s.setBits b f).valid = s.valid := rfl
@[simp] theorem State.setBits_cursor : (s.setBits b f).cursor = s.cursor := rfl
@[simp] theorem State.setBits_buffer : (s.setBits b f).buffer = b := rfl
@[simp] theorem State.setBits_fresh : (s.setBits b f).fresh = f := rfl
@[simp] theorem State.setBits_pending : (s.setBits b f).pending = s.pending := rfl
@[simp] theorem State.setBits_trace : (s.setBits b f).trace = s.trace := rfl
end setBits

section load
variable (s : State) (c b : Word) (f : BitVec 7)
@[simp] theorem State.load_valid : (s.load c b f).valid = true := rfl
@[simp] theorem State.load_cursor : (s.load c b f).cursor = c := rfl
@[simp] theorem State.load_buffer : (s.load c b f).buffer = b := rfl
@[simp] theorem State.load_fresh : (s.load c b f).fresh = f := rfl
@[simp] theorem State.load_pending : (s.load c b f).pending = s.pending := rfl
@[simp] theorem State.load_trace : (s.load c b f).trace = s.trace := rfl
end load

section draw
variable (P : Params) (s : State)
@[simp] theorem draw_word : (draw P s).1 = (P.next s.cursor).1 := rfl
@[simp] theorem draw_valid : (draw P s).2.valid = s.valid := rfl
@[simp] theorem draw_cursor : (draw P s).2.cursor = (P.next s.cursor).2 := rfl
@[simp] theorem draw_buffer : (draw P s).2.buffer = s.buffer := rfl
@[simp] theorem draw_fresh : (draw P s).2.fresh = s.fresh := rfl
@[simp] theorem draw_pending : (draw P s).2.pending = s.pending := rfl
@[simp] theorem draw_trace :
    (draw P s).2.trace = s.trace ++ [.draw s.cursor (P.next s.cursor).1 (P.next s.cursor).2] := rfl
end draw

section present
variable (s : State) (c : Command)
@[simp] theorem State.present_valid : (s.present c).valid = s.valid := rfl
@[simp] theorem State.present_cursor : (s.present c).cursor = s.cursor := rfl
@[simp] theorem State.present_buffer : (s.present c).buffer = s.buffer := rfl
@[simp] theorem State.present_fresh : (s.present c).fresh = s.fresh := rfl
@[simp] theorem State.present_pending : (s.present c).pending = .command c :: s.pending := rfl
@[simp] theorem State.present_trace : (s.present c).trace = s.trace := rfl
end present

section reset
@[simp] theorem State.reset_valid : State.reset.valid = false := rfl
@[simp] theorem State.reset_fresh : State.reset.fresh = 0 := rfl
@[simp] theorem State.reset_pending : State.reset.pending = [] := rfl
@[simp] theorem State.reset_trace : State.reset.trace = [] := rfl
end reset

end Sys2Proof.Machine
end

