-- ==== Sys2Proof/Laws/Words.lean ====
section
/-! SUPPORT. Laws of the word primitives (spec/00_scope.md R7, R8), of the product's high half, and of a stream's first bits
as a number. -/

namespace Sys2Proof.Laws

open Sys2Proof.Machine Sys2Proof.Safety

@[simp] theorem uint64_eq_toNat (x : Word) : uint64 x = x.toNat := rfl

/-- `sint64` is the two's-complement reading the library knows. -/
@[simp] theorem sint64_eq_toInt (x : Word) : sint64 x = x.toInt := by
  have h : x.getLsbD 63 = decide (2 ^ 63 ≤ x.toNat) := by
    have := BitVec.msb_eq_decide x
    simpa [BitVec.msb_eq_getLsbD_last] using this
  unfold sint64
  rw [h, BitVec.toInt_eq_toNat_cond]
  have := x.isLt
  split <;> split <;> simp_all <;> omega

/-- A legal count is its unsigned reading (43_generators.md R106). -/
theorem toInt_toNat_of_nonneg {x : Word} (h : 0 ≤ x.toInt) : x.toInt.toNat = x.toNat := by
  have := BitVec.toInt_eq_toNat_cond x
  have := x.isLt
  split at * <;> omega

theorem mask_getLsbD (n i : Nat) (hn : n ≤ 64) : (mask n).getLsbD i = decide (i < n) := by
  unfold mask
  rw [BitVec.getLsbD_ofNat, Nat.testBit_two_pow_sub_one]
  by_cases h : i < n <;> simp [h]; omega

theorem shiftRight_getLsbD (x : Word) (k i : Nat) : (shiftRight x k).getLsbD i = x.getLsbD (k + i) := by
  simp [shiftRight]

theorem shiftLeft_getLsbD (x : Word) (k i : Nat) :
    (shiftLeft x k).getLsbD i = (decide (i < 64) && !decide (i < k) && x.getLsbD (i - k)) := by
  simp [shiftLeft]

/-- A shift by 64 gives 0 (00_scope.md R8). -/
theorem shiftRight_64 (x : Word) : shiftRight x 64 = 0 := by
  ext i hi
  simp [shiftRight]

theorem scaleHigh_lt {v m : Nat} (hv : v < 2 ^ 64) (hm : 0 < m) : scaleHigh v m < m := by
  unfold scaleHigh
  exact Nat.div_lt_of_lt_mul (Nat.mul_lt_mul_of_pos_right hv hm)

/-- The high half of the product fits a word (41_widemul.md R80). -/
theorem mulHigh_toNat (x y : Word) : (mulHigh x y).toNat = x.toNat * y.toNat / 2 ^ 64 := by
  have hx := x.isLt
  have hy := y.isLt
  have : x.toNat * y.toNat / 2 ^ 64 < 2 ^ 64 := by
    apply Nat.div_lt_of_lt_mul
    exact Nat.mul_lt_mul'' hx hy
  simpa [mulHigh, scaleHigh] using Nat.mod_eq_of_lt this

theorem streamNat_lt (σ : Nat → Bool) (n : Nat) : streamNat σ n < 2 ^ n := by
  induction n with
  | zero => simp [streamNat]
  | succ n ih =>
    have : (σ n).toNat ≤ 1 := Bool.toNat_le _
    simp only [streamNat, pow_succ]
    nlinarith [Nat.two_pow_pos n]

/-- Bit `i` of the number the first `n` bits of a stream make is bit `i` of the stream. -/
theorem streamNat_testBit (σ : Nat → Bool) (n i : Nat) : (streamNat σ n).testBit i = (decide (i < n) && σ i) := by
  induction n with
  | zero => simp [streamNat]
  | succ n ih =>
    have hlt := streamNat_lt σ n
    have e : streamNat σ (n + 1) = 2 ^ n * (σ n).toNat + streamNat σ n := by simp [streamNat]; ring
    rw [e, Nat.testBit_two_pow_mul_add _ hlt]
    by_cases h : i < n
    · simp [h, ih, Nat.lt_succ_of_lt h]
    · rw [if_neg h]
      rcases Nat.lt_or_ge n i with g | g
      · have : ¬ i < n + 1 := by omega
        obtain ⟨k, rfl⟩ : ∃ k, i = n + 1 + k := ⟨i - n - 1, by omega⟩
        have e2 : n + 1 + k - n = k + 1 := by omega
        cases σ n <;> simp [e2, Nat.testBit_succ] <;> (intro; omega)
      · obtain rfl : i = n := by omega
        cases σ i <;> simp

/-- A word whose bits are the first `n` bits of a stream is the number they make. -/
theorem eq_ofNat_streamNat {σ : Nat → Bool} {n : Nat} {r : Word}
    (h : ∀ i, i < 64 → r.getLsbD i = (decide (i < n) && σ i)) : r = BitVec.ofNat 64 (streamNat σ n) := by
  apply BitVec.eq_of_getLsbD_eq
  intro i hi
  rw [h i hi, BitVec.getLsbD_ofNat, streamNat_testBit]
  simp [hi]

end Sys2Proof.Laws
end

