-- ==== Sys2Proof/Laws/Ops.lean ====
section
/-! SUPPORT. What each shared operation does, said once: the facts of a `Take`, of a run of takes and of `takeBytes`, the
answers of the checks, and the ports. Proofs cite these instead of unfolding the operation. -/

namespace Sys2Proof.Laws

open Sys2Proof.Machine Sys2Proof.Safety

variable {P : Params} {s : State}

/-! ### Draws -/

theorem cursorAfter_add (P : Params) (j k : Nat) (c : Word) :
    cursorAfter P (j + k) c = cursorAfter P k (cursorAfter P j c) := by
  induction j generalizing c with
  | zero => simp [cursorAfter]
  | succ j ih => rw [Nat.succ_add]; exact ih _

theorem rawWord_add (P : Params) (j k : Nat) (c : Word) :
    rawWord P c (j + k) = rawWord P (cursorAfter P j c) k := by
  simp [rawWord, cursorAfter_add]

theorem drawEvent_add (P : Params) (j k : Nat) (c : Word) :
    drawEvent P c (j + k) = drawEvent P (cursorAfter P j c) k := by
  simp [drawEvent, rawWord_add, Nat.add_assoc, cursorAfter_add]

theorem drawEvents_add (P : Params) (c : Word) (j k : Nat) :
    drawEvents P c (j + k) = drawEvents P c j ++ drawEvents P (cursorAfter P j c) k := by
  simp [drawEvents, List.range_add, Function.comp_def, drawEvent_add]

theorem drawEvents_all_isDraw (P : Params) (c : Word) (k : Nat) : (drawEvents P c k).all isDraw = true := by
  simp [drawEvents, drawEvent, isDraw]

theorem drawEvents_length (P : Params) (c : Word) (k : Nat) : (drawEvents P c k).length = k := by
  simp [drawEvents]

/-! ### Take -/

/-- Case 1 of `Take`: enough fresh bits, no draw (42_bitfield.md R90). -/
theorem take_of_le {n : Nat} (h : n ≤ s.fresh.toNat) :
    take P n s = (s.buffer &&& mask n, s.setBits (shiftRight s.buffer n) (BitVec.ofNat 7 (s.fresh.toNat - n))) := by
  simp [take, h]

/-- Case 2 of `Take`: exactly one draw (42_bitfield.md R90). -/
theorem take_of_lt {n : Nat} (h : s.fresh.toNat < n) :
    take P n s =
      ((s.buffer &&& mask s.fresh.toNat) |||
          shiftLeft ((draw P s).1 &&& mask (n - s.fresh.toNat)) s.fresh.toNat,
        (draw P s).2.setBits (shiftRight (draw P s).1 (n - s.fresh.toNat))
          (BitVec.ofNat 7 (64 - (n - s.fresh.toNat)))) := by
  have : ¬ n ≤ s.fresh.toNat := by omega
  simp [take, this]

@[simp] theorem take_valid (n : Nat) : (take P n s).2.valid = s.valid := by
  rcases Nat.lt_or_ge s.fresh.toNat n with h | h
  · simp [take_of_lt h]
  · simp [take_of_le h]

@[simp] theorem take_pending (n : Nat) : (take P n s).2.pending = s.pending := by
  rcases Nat.lt_or_ge s.fresh.toNat n with h | h
  · simp [take_of_lt h]
  · simp [take_of_le h]

theorem drawsNeeded_of_le {f n : Nat} (h : n ≤ f) : drawsNeeded f n = 0 := by
  unfold drawsNeeded; omega

theorem drawsNeeded_of_lt {f n : Nat} (h : f < n) (hn : n ≤ 64) : drawsNeeded f n = 1 := by
  unfold drawsNeeded; omega

/-- FRESH after a `Take`: what was fresh and what was drawn, less what was taken. -/
theorem take_fresh {n : Nat} (hn : n ≤ 64) :
    (take P n s).2.fresh.toNat = s.fresh.toNat + 64 * drawsNeeded s.fresh.toNat n - n := by
  have hf := s.fresh.isLt
  rcases Nat.lt_or_ge s.fresh.toNat n with h | h
  · rw [take_of_lt h, drawsNeeded_of_lt h hn]
    simp only [State.setBits_fresh, BitVec.toNat_ofNat]
    omega
  · rw [take_of_le h, drawsNeeded_of_le h]
    simp only [State.setBits_fresh, BitVec.toNat_ofNat]
    omega

theorem take_freshInRange {n : Nat} (hn : n ≤ 64) (hs : FreshInRange s) : FreshInRange (take P n s).2 := by
  unfold FreshInRange at *
  rw [take_fresh hn]
  unfold drawsNeeded
  omega

theorem take_cursor {n : Nat} (hn : n ≤ 64) :
    (take P n s).2.cursor = cursorAfter P (drawsNeeded s.fresh.toNat n) s.cursor := by
  rcases Nat.lt_or_ge s.fresh.toNat n with h | h
  · simp [take_of_lt h, drawsNeeded_of_lt h hn, cursorAfter]
  · simp [take_of_le h, drawsNeeded_of_le h, cursorAfter]

/-- What `Take(n)` leaves in BUFFER (42_bitfield.md R90). -/
theorem take_buffer {n : Nat} (hn : n ≤ 64) :
    (take P n s).2.buffer.toNat = bufferLeft P n s (take P n s).2.fresh.toNat := by
  rw [bufferLeft, take_fresh hn]
  rcases Nat.lt_or_ge s.fresh.toNat n with h | h
  · have e : 64 - (s.fresh.toNat + 64 * 1 - n) = n - s.fresh.toNat := by omega
    rw [take_of_lt h, drawsNeeded_of_lt h hn, e]
    simp [shiftRight, rawWord, cursorAfter, Nat.shiftRight_eq_div_pow]
  · rw [take_of_le h, drawsNeeded_of_le h]
    simp [shiftRight, Nat.shiftRight_eq_div_pow]

theorem take_trace {n : Nat} (hn : n ≤ 64) :
    (take P n s).2.trace = s.trace ++ drawEvents P s.cursor (drawsNeeded s.fresh.toNat n) := by
  rcases Nat.lt_or_ge s.fresh.toNat n with h | h
  · simp [take_of_lt h, drawsNeeded_of_lt h hn, drawEvents, drawEvent, cursorAfter, rawWord]
  · simp [take_of_le h, drawsNeeded_of_le h, drawEvents]

/-- The field `Take(n)` returns holds the next `n` bits of the stream, and zeros above them. -/
theorem take_getLsbD {n : Nat} (hn : n ≤ 64) (hs : FreshInRange s) (i : Nat) (hi : i < 64) :
    (take P n s).1.getLsbD i = (decide (i < n) && streamBit P s i) := by
  unfold FreshInRange at hs
  rcases Nat.lt_or_ge s.fresh.toNat n with h | h
  · rw [take_of_lt h]
    simp only [BitVec.getLsbD_or, BitVec.getLsbD_and, shiftLeft_getLsbD, mask_getLsbD _ _ hs,
      mask_getLsbD _ _ (show n - s.fresh.toNat ≤ 64 by omega), draw_word, streamBit, streamFrom]
    by_cases hif : i < s.fresh.toNat
    · have : i < n := by omega
      simp [hif, this]
    · have h1 : (i - s.fresh.toNat < n - s.fresh.toNat) ↔ i < n := by omega
      have h2 : (i - s.fresh.toNat) / 64 = 0 := by omega
      have h3 : (i - s.fresh.toNat) % 64 = i - s.fresh.toNat := by omega
      simp [hif, hi, h1, h2, h3, rawWord, cursorAfter, Bool.and_comm]
  · rw [take_of_le h]
    simp only [BitVec.getLsbD_and, mask_getLsbD _ _ hn, streamBit, streamFrom]
    by_cases hin : i < n
    · have : i < s.fresh.toNat := by omega
      simp [hin, this]
    · simp [hin]

/-- The number `Take(n)` returns is the number the next `n` bits of the stream make. -/
theorem take_eq_streamNat {n : Nat} (hn : n ≤ 64) (hs : FreshInRange s) :
    (take P n s).1 = BitVec.ofNat 64 (streamNat (streamBit P s) n) :=
  eq_ofNat_streamNat (take_getLsbD hn hs)

/-- After `Take(n)` the stream goes on with the bit after the last one taken: none lost, none repeated. -/
theorem take_streamBit {n : Nat} (hn : n ≤ 64) (hs : FreshInRange s) (k : Nat) :
    streamBit P (take P n s).2 k = streamBit P s (n + k) := by
  unfold FreshInRange at hs
  have hfr := take_fresh (P := P) (s := s) hn
  unfold streamBit streamFrom
  simp only [hfr]
  rcases Nat.lt_or_ge s.fresh.toNat n with h | h
  · rw [take_cursor hn, drawsNeeded_of_lt h hn]
    have hnk : ¬ n + k < s.fresh.toNat := by omega
    simp only [hnk, if_false]
    by_cases hk : k < s.fresh.toNat + 64 * 1 - n
    · have h1 : (n + k - s.fresh.toNat) / 64 = 0 := by omega
      have h2 : (n + k - s.fresh.toNat) % 64 = n - s.fresh.toNat + k := by omega
      rw [if_pos hk, take_of_lt h, h1, h2]
      simp [shiftRight_getLsbD, rawWord, cursorAfter]
    · have h1 : (n + k - s.fresh.toNat) / 64 = 1 + (k - (s.fresh.toNat + 64 * 1 - n)) / 64 := by omega
      have h2 : (n + k - s.fresh.toNat) % 64 = (k - (s.fresh.toNat + 64 * 1 - n)) % 64 := by omega
      rw [if_neg hk, h1, h2, rawWord_add]
  · rw [take_cursor hn, drawsNeeded_of_le h]
    by_cases hk : n + k < s.fresh.toNat
    · have : k < s.fresh.toNat + 64 * 0 - n := by omega
      rw [if_pos hk, if_pos this, take_of_le h]
      simp [shiftRight_getLsbD]
    · have h0 : ¬ k < s.fresh.toNat + 64 * 0 - n := by omega
      have h1 : k - (s.fresh.toNat + 64 * 0 - n) = n + k - s.fresh.toNat := by omega
      rw [if_neg hk, if_neg h0, h1]
      simp [cursorAfter]

/-! ### The answers of the shared endings -/

theorem respond_eq (v : Word) (s : State) : respond v s = .next (s.emit (.response ⟨.ok, v, []⟩)) := rfl

theorem respondBytes_eq (l : List Byte) (s : State) :
    respondBytes l s = .next (s.emit (.response ⟨.ok, 0, l⟩)) := rfl

theorem respondNone_eq (s : State) : respondNone s = .next (s.emit (.response ⟨.ok, 0, []⟩)) := rfl

/-- Raising an error appends its response and changes nothing else (60_exceptions.md R131). -/
theorem raiseError_eq (st : Status) (s : State) : raiseError st s = .next (s.emit (.response ⟨st, 0, []⟩)) := rfl

theorem whenValid_of_valid (run : State → Answer) (h : s.valid = true) : whenValid s run = run s := by
  simp [whenValid, h]

theorem whenValid_of_invalid (run : State → Answer) (h : s.valid = false) :
    whenValid s run = raiseError .notInitialized s := by
  simp [whenValid, h]

theorem loadState_of_le {c b f : Word} (h : f.toNat ≤ 64) :
    loadState c b f s = respondNone (s.load c b (f.extractLsb' 0 7)) := by
  have : ¬ 64 < f.toNat := by omega
  simp [loadState, this]

theorem loadState_of_gt {c b f : Word} (h : 64 < f.toNat) : loadState c b f s = raiseError .outOfRange s := by
  simp [loadState, h]

/-- The low seven bits of a legal FRESH operand are its value (40_state_commands.md R70, R71). -/
theorem freshOperand_toNat {f : Word} (h : f.toNat ≤ 64) : (f.extractLsb' 0 7).toNat = f.toNat := by
  simp [BitVec.extractLsb'_toNat]
  omega

/-! ### A run of takes -/

@[simp] theorem takeMany_valid (ns : List Nat) : (takeMany P ns s).2.valid = s.valid := by
  induction ns generalizing s with
  | nil => rfl
  | cons n ns ih => simp [takeMany, ih]

@[simp] theorem takeMany_pending (ns : List Nat) : (takeMany P ns s).2.pending = s.pending := by
  induction ns generalizing s with
  | nil => rfl
  | cons n ns ih => simp [takeMany, ih]

theorem takeMany_append (ns ms : List Nat) (s : State) :
    (takeMany P (ns ++ ms) s).2 = (takeMany P ms (takeMany P ns s).2).2 := by
  induction ns generalizing s with
  | nil => rfl
  | cons n ns ih => exact ih _

/-- After INIT or LDSTATE the stream is that of the loaded elements (10_state.md R29). -/
@[simp] theorem streamBit_load (s : State) (c b : Word) (f : BitVec 7) (k : Nat) :
    streamBit P (s.load c b f) k = streamFrom P c b f.toNat k := rfl

/-- What passes over a port after the bits were taken is no part of the stream. -/
@[simp] theorem streamBit_emit (s : State) (e : PortEvent) (k : Nat) :
    streamBit P (s.emit e) k = streamBit P s k := rfl

/-- `takeBytes` is a run of `Take(8)`. -/
theorem takeBytes_eq_takeMany (count : Nat) (s : State) :
    takeBytes P count s =
      ((takeMany P (List.replicate count 8) s).1.map (fun r => r.extractLsb' 0 8),
        (takeMany P (List.replicate count 8) s).2) := by
  induction count generalizing s with
  | zero => rfl
  | succ count ih => simp [takeBytes, takeMany, List.replicate_succ, ih]

end Sys2Proof.Laws
end

