-- ==== Sys2Proof/Laws/PerInstr.lean ====
section
/-! SUPPORT. One family of facts stated per instruction: the header an instruction is encoded with has RSVD zero and an OPC of
the opcode map, and the words it does not read are zero (spec/30_encoding.md R51, R52, R60). -/

namespace Sys2Proof.Laws.EncodedForm

open Sys2Proof.Safety

/-- RSVD is zero, OPC is listed and is the instruction's own, and clearing the words the instruction does not read changes
nothing. -/
def Statement (i : Instr) : Prop :=
  headerRsvd (encode i).h = 0 ∧ headerOpc (encode i).h = opcode i ∧ opcode i ∈ listedOpcodes ∧
    clearUnread (encode i) i = encode i

theorem opcode_listed (i : Instr) : opcode i ∈ listedOpcodes := by
  cases i <;> simp [opcode, listedOpcodes]

theorem mulhi (x y : Word) : Statement (.mulhi x y) := by
  refine ⟨by simp, by simp, opcode_listed _, ?_⟩
  simp only [clearUnread, encode_h, encode_a, encode_b]; rfl

theorem asi64 (u : Word) : Statement (.asi64 u) := by
  refine ⟨by simp, by simp, opcode_listed _, ?_⟩
  simp only [clearUnread, encode_h, encode_a]; rfl

theorem asu64 (i : Word) : Statement (.asu64 i) := by
  refine ⟨by simp, by simp, opcode_listed _, ?_⟩
  simp only [clearUnread, encode_h, encode_a]; rfl

theorem nextn (n : Word) : Statement (.nextn n) := by
  refine ⟨by simp, by simp, opcode_listed _, ?_⟩
  simp only [clearUnread, encode_h, encode_a]; rfl

theorem nextu64 : Statement .nextu64 := by
  refine ⟨by simp, by simp, opcode_listed _, ?_⟩
  simp only [clearUnread, encode_h]; rfl

theorem nextu64b (max : Word) : Statement (.nextu64b max) := by
  refine ⟨by simp, by simp, opcode_listed _, ?_⟩
  simp only [clearUnread, encode_h, encode_a]; rfl

theorem nextu64r (min max : Word) : Statement (.nextu64r min max) := by
  refine ⟨by simp, by simp, opcode_listed _, ?_⟩
  simp only [clearUnread, encode_h, encode_a, encode_b]; rfl

theorem nexti64 : Statement .nexti64 := by
  refine ⟨by simp, by simp, opcode_listed _, ?_⟩
  simp only [clearUnread, encode_h]; rfl

theorem nextf64 : Statement .nextf64 := by
  refine ⟨by simp, by simp, opcode_listed _, ?_⟩
  simp only [clearUnread, encode_h]; rfl

theorem nextbytes (count : Word) : Statement (.nextbytes count) := by
  refine ⟨by simp, by simp, opcode_listed _, ?_⟩
  simp only [clearUnread, encode_h, encode_a]; rfl

theorem init (seed buf fresh : Word) : Statement (.init seed buf fresh) := by
  refine ⟨by simp, by simp, opcode_listed _, ?_⟩
  simp only [clearUnread, encode_h, encode_a, encode_b, encode_c]; rfl

theorem ldstate (cursor buf fresh : Word) : Statement (.ldstate cursor buf fresh) := by
  refine ⟨by simp, by simp, opcode_listed _, ?_⟩
  simp only [clearUnread, encode_h, encode_a, encode_b, encode_c]; rfl

end Sys2Proof.Laws.EncodedForm
end

