-- ==== Sys2Proof/Laws/Step.lean ====
section
/-! SUPPORT. The step and the parametric machine: how a step reduces to one act, and that `exec` and `step` are the
parametric machine at this hardware's parameters. -/

namespace Sys2Proof.Laws

open Sys2Proof.Machine Sys2Proof.Safety

/-- A command whose status is OK has legal operands. -/
theorem wellFormed_of_expectedStatus_ok {P : Params} {i : Instr} {v : Bool} (h : expectedStatus P i v = .ok) :
    i.wellFormed P = true := by
  unfold expectedStatus at h
  split at h
  · cases i <;> simp [operandError] at h
  · cases hw : i.wellFormed P
    · contradiction
    · rfl

/-- A command with legal operands takes fields of at most 64 bits. -/
theorem takeWidths_le_of_wellFormed {P : Params} {i : Instr} (h : i.wellFormed P = true) : ∀ n ∈ takeWidths i, n ≤ 64 := by
  cases i <;> simp [takeWidths, Instr.wellFormed] at *
  omega

theorem execWith_hardware (i : Instr) (s : State) : execWith hardware i s = exec i s := by
  cases i <;> rfl

theorem stepUsing_nil {run : Instr → State → Answer} {s : State} (h : s.pending = []) : stepUsing run s = .next s := by
  simp [stepUsing, h]

theorem stepUsing_cons {run : Instr → State → Answer} {s : State} {act : HostAct} {rest : List HostAct}
    (h : s.pending = act :: rest) : stepUsing run s = performAct run act { s with pending := rest } := by
  simp [stepUsing, h]

theorem performCommand_ok {run : Instr → State → Answer} {c : Command} {s : State} {i : Instr}
    (h : decode c = .ok i) : performCommand run c s = run i s := by
  simp [performCommand, h]

theorem performCommand_error {run : Instr → State → Answer} {c : Command} {s : State} {e : DecodeError}
    (h : decode c = .error e) : performCommand run c s = raiseError .illegalCommand s := by
  simp [performCommand, h]

/-- The state-read port answers, or faults because the element holds no value (10_state.md R27). -/
theorem readPort_cases (n : Fin 4) (s : State) :
    readPort n s = .next (s.emit (.stateValue (elementOfNumber n) (readElement (elementOfNumber n) s))) ∨
      (s.valid = false ∧ elementOfNumber n ≠ .valid ∧ readPort n s = .fault (.readWhileInvalid (elementOfNumber n))) := by
  unfold readPort
  by_cases h : s.valid ∨ elementOfNumber n = .valid
  · left; simp [h]
  · right
    have hv : s.valid = false := by
      cases hs : s.valid
      · rfl
      · exact absurd (Or.inl hs) h
    have he : elementOfNumber n ≠ .valid := fun g => h (Or.inr g)
    exact ⟨hv, he, by simp [hv, he]⟩

/-- Every decoded command, under any parameters, is one of four things: it raises an error; it is a generator that takes bits with
`takeMany` and answers; it is stateless and answers; or it is INIT or LDSTATE and writes all four elements. -/
theorem execWith_cases (P : Params) (i : Instr) (s : State) :
    (∃ st, st ≠ .ok ∧ expectedStatus P i s.valid = st ∧ execWith P i s = raiseError st s) ∨
      (expectedStatus P i s.valid = .ok ∧ isGenerator i = true ∧ s.valid = true ∧ i.wellFormed P = true ∧
        ∃ r, r.status = .ok ∧ execWith P i s = .next ((takeMany P (takeWidths i) s).2.emit (.response r))) ∨
      (expectedStatus P i s.valid = .ok ∧ isGenerator i = false ∧ i.wellFormed P = true ∧
        ∃ v, execWith P i s = .next (s.emit (.response (valueResponse v)))) ∨
      (expectedStatus P i s.valid = .ok ∧ isGenerator i = false ∧ i.wellFormed P = true ∧
        ∃ a b f, (i = .init a b f ∨ i = .ldstate a b f) ∧ f.toNat ≤ 64 ∧
          execWith P i s = .next ((s.load a b (f.extractLsb' 0 7)).emit (.response emptyResponse))) := by
  have generator : ∀ (n : Nat) (value : Word → Word), s.valid = true →
      whenValid s (takeAndRespond P n value) =
        .next ((takeMany P [n] s).2.emit (.response ⟨.ok, value (take P n s).1, []⟩)) := by
    intro n value hv
    rw [whenValid_of_valid _ hv]
    rfl
  cases i with
  | mulhi x y => exact .inr (.inr (.inl ⟨rfl, rfl, rfl, _, rfl⟩))
  | asi64 u => exact .inr (.inr (.inl ⟨rfl, rfl, rfl, _, rfl⟩))
  | asu64 u => exact .inr (.inr (.inl ⟨rfl, rfl, rfl, _, rfl⟩))
  | nextn n =>
    by_cases hn : 1 ≤ n.toNat ∧ n.toNat ≤ 64
    · have h0 : ¬ (uint64 n < 1 ∨ 64 < uint64 n) := by simp; omega
      cases hv : s.valid
      · exact .inl ⟨.notInitialized, by simp, by simp [expectedStatus, Instr.wellFormed, hn, isGenerator],
          by simp only [execWith, nextnWith, if_neg h0]; exact whenValid_of_invalid _ hv⟩
      · refine .inr (.inl ⟨by simp [expectedStatus, Instr.wellFormed, hn, isGenerator], rfl, rfl,
          by simp [Instr.wellFormed, hn], ⟨.ok, (take P n.toNat s).1, []⟩, rfl, ?_⟩)
        simp only [execWith, nextnWith, if_neg h0]
        exact generator n.toNat id hv
    · have h0 : uint64 n < 1 ∨ 64 < uint64 n := by simp; omega
      have hw : (Instr.nextn n).wellFormed P = false := by
        simp only [Instr.wellFormed, Bool.and_eq_false_iff, decide_eq_false_iff_not]; omega
      exact .inl ⟨.outOfRange, by simp, by simp [expectedStatus, hw, operandError], by simp only [execWith, nextnWith, if_pos h0]⟩
  | nextu64 =>
    cases hv : s.valid
    · exact .inl ⟨.notInitialized, by simp, rfl, whenValid_of_invalid _ hv⟩
    · exact .inr (.inl ⟨rfl, rfl, rfl, rfl, _, rfl, generator 64 id hv⟩)
  | nexti64 =>
    cases hv : s.valid
    · exact .inl ⟨.notInitialized, by simp, rfl, whenValid_of_invalid _ hv⟩
    · exact .inr (.inl ⟨rfl, rfl, rfl, rfl, _, rfl, generator 64 id hv⟩)
  | nextf64 =>
    cases hv : s.valid
    · exact .inl ⟨.notInitialized, by simp, rfl, whenValid_of_invalid _ hv⟩
    · exact .inr (.inl ⟨rfl, rfl, rfl, rfl, _, rfl, generator 64 (unitF64 P.rounding) hv⟩)
  | nextu64b max =>
    by_cases hm : max.toNat = 0
    · have hw : (Instr.nextu64b max).wellFormed P = false := by simp [Instr.wellFormed, hm]
      exact .inl ⟨.outOfRange, by simp, by simp [expectedStatus, hw, operandError],
        by simp only [execWith, nextu64bWith, if_pos (show uint64 max = 0 from hm)]⟩
    · have hw : (Instr.nextu64b max).wellFormed P = true := by
        simp only [Instr.wellFormed, decide_eq_true_eq]; omega
      cases hv : s.valid
      · exact .inl ⟨.notInitialized, by simp, by simp [expectedStatus, hw, isGenerator],
          by simp only [execWith, nextu64bWith, if_neg (show ¬ uint64 max = 0 from hm)]; exact whenValid_of_invalid _ hv⟩
      · refine .inr (.inl ⟨by simp [expectedStatus, hw, isGenerator], rfl, rfl, hw, ⟨.ok, mulHigh (take P 64 s).1 max, []⟩, rfl, ?_⟩)
        simp only [execWith, nextu64bWith, if_neg (show ¬ uint64 max = 0 from hm)]
        exact generator 64 _ hv
  | nextu64r lo hi =>
    by_cases hm : lo.toNat < hi.toNat
    · have h0 : ¬ ¬ uint64 lo < uint64 hi := by simpa using hm
      have hw : (Instr.nextu64r lo hi).wellFormed P = true := by simpa [Instr.wellFormed] using hm
      cases hv : s.valid
      · exact .inl ⟨.notInitialized, by simp, by simp [expectedStatus, hw, isGenerator],
          by simp only [execWith, nextu64rWith, if_neg h0]; exact whenValid_of_invalid _ hv⟩
      · refine .inr (.inl ⟨by simp [expectedStatus, hw, isGenerator], rfl, rfl, hw,
          ⟨.ok, BitVec.ofNat 64 (uint64 lo + scaleHigh (uint64 (take P 64 s).1) (uint64 hi - uint64 lo)), []⟩, rfl, ?_⟩)
        simp only [execWith, nextu64rWith, if_neg h0]
        exact generator 64 _ hv
    · have h0 : ¬ uint64 lo < uint64 hi := hm
      have hw : (Instr.nextu64r lo hi).wellFormed P = false := by simpa [Instr.wellFormed] using hm
      exact .inl ⟨.invalidArgument, by simp, by simp [expectedStatus, hw, operandError],
        by simp only [execWith, nextu64rWith, if_pos h0]⟩
  | nextbytes count =>
    by_cases hc : 0 ≤ count.toInt
    · have h0 : ¬ sint64 count < 0 := by simpa using hc
      have hw : (Instr.nextbytes count).wellFormed P = true := by simpa [Instr.wellFormed] using hc
      cases hv : s.valid
      · exact .inl ⟨.notInitialized, by simp, by simp [expectedStatus, hw, isGenerator],
          by simp only [execWith, nextbytesWith, if_neg h0]; exact whenValid_of_invalid _ hv⟩
      · refine .inr (.inl ⟨by simp [expectedStatus, hw, isGenerator], rfl, rfl, hw,
          bytesResponse (takeBytes P (sint64 count).toNat s).1, rfl, ?_⟩)
        simp only [execWith, nextbytesWith, if_neg h0]
        rw [whenValid_of_valid _ hv]
        simp [respondBytes, takeBytes_eq_takeMany, toInt_toNat_of_nonneg hc, takeWidths]
    · have h0 : sint64 count < 0 := by simpa using hc
      have hw : (Instr.nextbytes count).wellFormed P = false := by simpa [Instr.wellFormed] using hc
      exact .inl ⟨.outOfRange, by simp, by simp [expectedStatus, hw, operandError],
        by simp only [execWith, nextbytesWith, if_pos h0]⟩
  | init seed buf fresh =>
    by_cases hs : P.seedValid seed = true
    · by_cases hf : fresh.toNat ≤ 64
      · have hw : (Instr.init seed buf fresh).wellFormed P = true := by simp [Instr.wellFormed, hs, hf]
        refine .inr (.inr (.inr ⟨by simp [expectedStatus, hw, isGenerator], rfl, hw, seed, buf, fresh, .inl rfl, hf, ?_⟩))
        simp only [execWith, initWith, hs, if_true, loadState_of_le hf]
        rfl
      · have hw : (Instr.init seed buf fresh).wellFormed P = false := by simp [Instr.wellFormed, hf]
        exact .inl ⟨.outOfRange, by simp, by simp [expectedStatus, hw, operandError],
          by simp only [execWith, initWith, hs, if_true]; exact loadState_of_gt (by omega)⟩
    · have hw : (Instr.init seed buf fresh).wellFormed P = false := by simp [Instr.wellFormed, hs]
      exact .inl ⟨.outOfRange, by simp, by simp [expectedStatus, hw, operandError],
        by simp [execWith, initWith, hs]⟩
  | ldstate cursor buf fresh =>
    by_cases hf : fresh.toNat ≤ 64
    · have hw : (Instr.ldstate cursor buf fresh).wellFormed P = true := by simp [Instr.wellFormed, hf]
      refine .inr (.inr (.inr ⟨by simp [expectedStatus, hw, isGenerator], rfl, hw, cursor, buf, fresh, .inr rfl, hf, ?_⟩))
      simp only [execWith, execLdstate, loadState_of_le hf]
      rfl
    · have hw : (Instr.ldstate cursor buf fresh).wellFormed P = false := by simp [Instr.wellFormed, hf]
      exact .inl ⟨.outOfRange, by simp, by simp [expectedStatus, hw, operandError],
        by simp only [execWith, execLdstate]; exact loadState_of_gt (by omega)⟩

end Sys2Proof.Laws
end

