-- ==== Sys2Proof/Tests/Slice0.lean ====
section
/-! SUPPORT. Tests against the spec's own vectors (spec/95_test_vectors.md, the worked examples of the rules), the smoke tests of the
well-formedness checks, and a witness for the hypotheses of each statement. Expected values are the spec's. -/

namespace Sys2Proof.Tests

open Sys2Proof.Machine Sys2Proof.Safety

/-! ### Sources and helpers -/

/-- The word T(c) of source TS (95_test_vectors.md section 0). -/
def tsWord (c : Word) : Word :=
  if c = 1 then 0x0123456789ABCDEF
  else if c = 2 then 0xFEDCBA9876543210
  else if c = 3 then 0xDEADBEEFCAFEF00D
  else if c = 4 then 0x0F0F0F0F0F0F0F0F
  else if c = 5 then 0x8000000000000001
  else 0

/-- The block with source TS and the default seed check (95_test_vectors.md section 0). -/
def ts : Params where
  next c := (tsWord c, c + 1)
  seedValid := defaultSeedValid
  seedValid_zero := by decide
  rounding := .rtz

/-- The block with source CMAX (95_test_vectors.md section 0). -/
def cmax : Params where
  next c := (0xFFFFFFFFFFFFFFFF, c + 1)
  seedValid := defaultSeedValid
  seedValid_zero := by decide
  rounding := .rtz

/-- The state written `V=1 C=c B=b F=f`, with nothing presented and nothing passed. -/
def st (c b : Word) (f : BitVec 7) : State := ⟨true, c, b, f, [], []⟩

/-- The responses among port events. -/
def responses : List PortEvent → List Response
  | [] => []
  | .response r :: es => r :: responses es
  | .draw _ _ _ :: es => responses es
  | .stateValue _ _ :: es => responses es

/-- The four elements of a next state and the responses given. -/
structure View where
  valid : Bool
  cursor : Word
  buffer : Word
  fresh : BitVec 7
  responses : List Response
  deriving DecidableEq, Repr

/-- What can be seen of an answer's next state. -/
def view : Answer → Option View
  | .next t => some ⟨t.valid, t.cursor, t.buffer, t.fresh, responses t.trace⟩
  | .fault _ => none
  | .refused _ => none

/-- The next state of an answer. -/
def nextOf : Answer → Option State
  | .next t => some t
  | .fault _ => none
  | .refused _ => none

/-- The fault of an answer. -/
def faultOf : Answer → Option Fault
  | .next _ => none
  | .fault r => some r
  | .refused _ => none

/-- A successful response with a VALUE. -/
def okValue (v : Word) : Response := ⟨.ok, v, []⟩

/-- An error response. -/
def error (s : Status) : Response := ⟨s, 0, []⟩

/-- The elements as they are in the reset state, with one response given. -/
def resetView (r : Response) : Option View := some ⟨false, 0, 0, 0, [r]⟩

/-! ### Decoding: words of programs P1 to P4 and of section L2.9, written out -/

theorem test_decode_mulhi : decode (commandOf 0x0000000000000001 0xFFFFFFFFFFFFFFFF 0xFFFFFFFFFFFFFFFF 0) =
    .ok (.mulhi 0xFFFFFFFFFFFFFFFF 0xFFFFFFFFFFFFFFFF) := by decide
theorem test_decode_asi64 : decode (commandOf 0x0000000000000002 0xFFFFFFFFFFFFFFFF 0 0) =
    .ok (.asi64 0xFFFFFFFFFFFFFFFF) := by decide
theorem test_decode_asu64 : decode (commandOf 0x0000000000000003 0x8000000000000000 0 0) =
    .ok (.asu64 0x8000000000000000) := by decide
theorem test_decode_nextn : decode (commandOf 0x0000000000000010 0x000000000000003C 0 0) = .ok (.nextn 60) := by decide
theorem test_decode_nextu64 : decode (commandOf 0x0000000000000011 0xDEAD 0xBEEF 0xCAFE) = .ok .nextu64 := by decide
theorem test_decode_nextu64b : decode (commandOf 0x0000000000000012 0x64 0 0) = .ok (.nextu64b 100) := by decide
theorem test_decode_nextu64r : decode (commandOf 0x0000000000000013 0x64 0xC8 0) = .ok (.nextu64r 100 200) := by decide
theorem test_decode_nexti64 : decode (commandOf 0x0000000000000014 0 0 0) = .ok .nexti64 := by decide
theorem test_decode_nextf64 : decode (commandOf 0x0000000000000015 0 0 0) = .ok .nextf64 := by decide
theorem test_decode_nextbytes : decode (commandOf 0x0000000000000016 7 0 0) = .ok (.nextbytes 7) := by decide
theorem test_decode_init : decode (commandOf 0x0000000000000020 2 0x1122334455667788 0x40) =
    .ok (.init 2 0x1122334455667788 64) := by decide
theorem test_decode_ldstate : decode (commandOf 0x0000000000000021 3 0x8899 0x10) = .ok (.ldstate 3 0x8899 16) := by decide
/-- The 256-bit command is C:B:A:H with H in bits [63:0] (L3), written as one number. -/
theorem test_decode_whole_word :
    decode 0x0000000000000040112233445566778800000000000000020000000000000020 = .ok (.init 2 0x1122334455667788 64) := by
  decide
/-- L2.9 rows E1, E3 and E4. -/
theorem test_decode_unlisted :
    decode (commandOf 0x00 0 0 0) = .error (.unlistedOpcode 0) ∧ decode (commandOf 0x17 0 0 0) = .error (.unlistedOpcode 0x17) ∧
      decode (commandOf 0xFF 0 0 0) = .error (.unlistedOpcode 0xFF) := by decide
/-- L2.9 rows E2 and E5. -/
theorem test_decode_reserved :
    decode (commandOf 0x111 0 0 0) = .error (.reservedBits 1) ∧
      decode (commandOf 0x8000000000000011 0 0 0) = .error (.reservedBits 0x80000000000000) := by decide
/-- Program P1 line 3, as the assembler writes it. -/
theorem test_encode_nextn : encode (.nextn 60) = commandOf 0x10 0x3C 0 0 := by decide
/-- The opcode table's numbering: bit 0 is the least significant bit of H. -/
theorem test_decodeTableWord : decodeTableWord 64 0x11 = some .nextu64 ∧ decodeTableWord 64 0x111 = none ∧
    decodeTableWord 256 (0x10 + 0x3C * 2 ^ 64) = some (.nextn 60) := by decide

/-! ### Well-formedness: each check refuses an ill-formed term (30_encoding.md R53) -/

theorem test_wellFormed_accepts :
    (Instr.nextn 1).wellFormed ts ∧ (Instr.nextn 64).wellFormed ts ∧ (Instr.nextu64b 1).wellFormed ts ∧
      (Instr.nextu64r 0 1).wellFormed ts ∧ (Instr.nextbytes 0).wellFormed ts ∧ (Instr.init 1 0 64).wellFormed ts ∧
      (Instr.ldstate 0 0 64).wellFormed ts := by decide
theorem test_wellFormed_refuses_width_zero : (Instr.nextn 0).wellFormed ts = false := by decide
theorem test_wellFormed_refuses_width_65 : (Instr.nextn 65).wellFormed ts = false := by decide
theorem test_wellFormed_refuses_bound_zero : (Instr.nextu64b 0).wellFormed ts = false := by decide
theorem test_wellFormed_refuses_equal_bounds : (Instr.nextu64r 5 5).wellFormed ts = false := by decide
theorem test_wellFormed_refuses_negative_count : (Instr.nextbytes 0xFFFFFFFFFFFFFFFF).wellFormed ts = false := by decide
theorem test_wellFormed_refuses_seed_zero : (Instr.init 0 0 64).wellFormed ts = false := by decide
theorem test_wellFormed_refuses_init_fresh_65 : (Instr.init 5 0 65).wellFormed ts = false := by decide
theorem test_wellFormed_refuses_ldstate_fresh_65 : (Instr.ldstate 1 1 65).wellFormed ts = false := by decide

/-! ### Commands -/

/-- L2.1 row 3, while VALID = 0. -/
theorem test_mulhi : view (exec (.mulhi 0x0123456789ABCDEF 0xFEDCBA9876543210) State.reset) =
    resetView (okValue 0x0121FA00AD77D742) := by decide
/-- L2.1 row 1, in both forms. -/
theorem test_mulhi_max : mulHigh 0xFFFFFFFFFFFFFFFF 0xFFFFFFFFFFFFFFFF = 0xFFFFFFFFFFFFFFFE ∧
    mulHighPartial 0xFFFFFFFFFFFFFFFF 0xFFFFFFFFFFFFFFFF = 0xFFFFFFFFFFFFFFFE := by decide
/-- 41_widemul.md R81, worked example: reads as -2. -/
theorem test_asi64 : view (exec (.asi64 0xFFFFFFFFFFFFFFFE) State.reset) = resetView (okValue 0xFFFFFFFFFFFFFFFE) ∧
    sint64 0xFFFFFFFFFFFFFFFE = -2 := by decide
/-- L2.1: `ASU64 -9223372036854775808` reads as 9223372036854775808. -/
theorem test_asu64 : view (exec (.asu64 (pat (-9223372036854775808))) State.reset) = resetView (okValue 0x8000000000000000) ∧
    uint64 0x8000000000000000 = 9223372036854775808 := by decide
/-- L2.2 row B4: a field over two words. -/
theorem test_nextn_straddles : view (execWith ts (.nextn 64) (st 1 0x5 3)) =
    some ⟨true, 2, 0, 3, [okValue 0x091A2B3C4D5E6F7D]⟩ := by decide
/-- L2.2 row B6: bits of BUFFER above FRESH never reach the result. -/
theorem test_nextn_stale_bits : view (execWith ts (.nextn 2) (st 1 0x3FFFFFFFFFFFFFFF 1)) =
    some ⟨true, 2, 0x0091A2B3C4D5E6F7, 63, [okValue 3]⟩ := by decide
/-- L2.3 row U1. -/
theorem test_nextu64 : view (execWith ts .nextu64 (st 3 0x00FEDCBA98765432 56)) =
    some ⟨true, 4, 0x00DEADBEEFCAFEF0, 56, [okValue 0x0DFEDCBA98765432]⟩ := by decide
/-- L2.3 row U2. -/
theorem test_nextu64_max : view (execWith cmax .nextu64 (st 5 7 3)) =
    some ⟨true, 6, 7, 3, [okValue 0xFFFFFFFFFFFFFFFF]⟩ := by decide
/-- L2.4 row G7. -/
theorem test_nextu64b : view (execWith ts (.nextu64b 0x8000000000000000) (st 3 0 0)) =
    some ⟨true, 4, 0, 0, [okValue 0x6F56DF77E57F7806]⟩ := by decide
/-- L2.4 row G2. -/
theorem test_nextu64b_max : view (execWith cmax (.nextu64b 0xFFFFFFFFFFFFFFFF) (st 2 7 3)) =
    some ⟨true, 3, 7, 3, [okValue 0xFFFFFFFFFFFFFFFE]⟩ := by decide
/-- L2.4 row G10. -/
theorem test_nextu64r : view (execWith ts (.nextu64r 100 200) (st 2 0 0)) = some ⟨true, 3, 0, 0, [okValue 0xC7]⟩ := by decide
/-- L2.4 row G11: the bounds are unsigned. -/
theorem test_nextu64r_unsigned : view (execWith ts (.nextu64r 0xFFFFFFFFFFFFFFFB 5) (st 1 0 0)) =
    some ⟨true, 1, 0, 0, [error .invalidArgument]⟩ := by decide
/-- L2.5 row I3. -/
theorem test_nexti64 : view (execWith ts .nexti64 (st 3 0 0)) = some ⟨true, 4, 0, 0, [okValue 0xDEADBEEFCAFEF00D]⟩ ∧
    sint64 0xDEADBEEFCAFEF00D = -2401053089206439923 := by decide
/-- L2.6 row D1. -/
theorem test_nextf64 : view (execWith ts .nextf64 (st 1 0 0)) = some ⟨true, 2, 0, 0, [okValue 0x3F723456789ABCDE]⟩ := by decide
/-- L2.6, row 2^54 - 1, and the last row, in both roundings. -/
theorem test_unitF64 : unitF64 .rtz 0x003FFFFFFFFFFFFF = 0x3F4FFFFFFFFFFFFF ∧ unitF64 .rne 0x003FFFFFFFFFFFFF = 0x3F50000000000000 ∧
    unitF64 .rtz 0xFFFFFFFFFFFFFFFF = 0x3FEFFFFFFFFFFFFF ∧ unitF64 .rne 0xFFFFFFFFFFFFFFFF = 0x3FF0000000000000 := by decide
/-- L2.6: zero, the least input, and the two ties to even. -/
theorem test_unitF64_ties : unitF64 .rne 0 = 0 ∧ unitF64 .rtz 1 = 0x3BF0000000000000 ∧
    unitF64 .rne 0x0020000000000001 = 0x3F40000000000000 ∧ unitF64 .rne 0x0020000000000003 = 0x3F40000000000002 := by decide
/-- L2.7 row Y2. -/
theorem test_nextbytes : view (execWith ts (.nextbytes 7) (st 1 0x0000001122334455 40)) =
    some ⟨true, 2, 0x00000123456789AB, 48, [⟨.ok, 0, [0x55, 0x44, 0x33, 0x22, 0x11, 0xEF, 0xCD]⟩]⟩ := by decide
/-- L2.7 row Y4. -/
theorem test_nextbytes_negative : view (execWith ts (.nextbytes 0xFFFFFFFFFFFFFFFF) (st 2 0x00000123456789AB 48)) =
    some ⟨true, 2, 0x00000123456789AB, 48, [error .outOfRange]⟩ := by decide
/-- L2.8 row S1. -/
theorem test_init : view (exec (.init 2 0x1122334455667788 64) State.reset) =
    some ⟨true, 2, 0x1122334455667788, 64, [⟨.ok, 0, []⟩]⟩ := by decide
/-- L2.8 rows S4 and S6. -/
theorem test_init_rejects : view (exec (.init 0x8000000000000000 0 64) State.reset) = resetView (error .outOfRange) ∧
    view (exec (.init 5 0 65) State.reset) = resetView (error .outOfRange) := by decide
/-- L2.8 row S10. -/
theorem test_ldstate : view (exec (.ldstate 0xFFFFFFFFFFFFFFFF 0xFFFFFFFFFFFFFFFF 64) (st 0 0 0)) =
    some ⟨true, 0xFFFFFFFFFFFFFFFF, 0xFFFFFFFFFFFFFFFF, 64, [⟨.ok, 0, []⟩]⟩ := by decide
/-- L2.8 row S11. -/
theorem test_ldstate_rejects : view (exec (.ldstate 1 1 65) (st 0xFFFFFFFFFFFFFFFF 0xFFFFFFFFFFFFFFFF 64)) =
    some ⟨true, 0xFFFFFFFFFFFFFFFF, 0xFFFFFFFFFFFFFFFF, 64, [error .outOfRange]⟩ := by decide
/-- L2.9 rows E6 and E7: NOT_INITIALIZED, and the operand error that wins over it. -/
theorem test_error_priority : view (exec .nextu64 State.reset) = resetView (error .notInitialized) ∧
    view (exec (.nextn 0) State.reset) = resetView (error .outOfRange) := by decide
/-- L2.7 row Y7: a count of 0 is still a generator command. -/
theorem test_nextbytes_zero_uninitialised : view (exec (.nextbytes 0) State.reset) = resetView (error .notInitialized) := by decide

/-! ### The step -/

/-- L2.9 row E1: the all-zero command is answered ILLEGAL_COMMAND, and the draw of a command stands before its response. -/
theorem test_step_illegal : nextOf (step { State.reset with pending := [.command 0] }) =
    some { State.reset with trace := [.response (error .illegalCommand)] } := by decide
/-- The draw of a command stands before its response; L2.2 row B2. -/
theorem test_step_draws : nextOf (stepWith ts { st 1 0 0 with pending := [.command (commandOf 0x11 0xDEAD 0xBEEF 0xCAFE)] }) =
    some { st 2 0 0 with trace := [.draw 1 0x0123456789ABCDEF 2, .response (okValue 0x0123456789ABCDEF)] } := by decide
/-- 10_state.md R27, while VALID = 1. -/
theorem test_step_stateRead : nextOf (step { st 3 0x8899 16 with pending := [.stateRead 3, .reset] }) =
    some { st 3 0x8899 16 with pending := [.reset], trace := [.stateValue .fresh 16] } := by decide
/-- 10_state.md R27, while VALID = 0. -/
theorem test_step_stateRead_faults : faultOf (step { State.reset with pending := [.stateRead 1] }) =
    some (.readWhileInvalid .cursor) := by decide
/-- 70_reset_and_hazards.md R150. -/
theorem test_step_reset : nextOf (step { st 3 0x8899 16 with pending := [.reset] }) = some State.reset := by decide
/-- The first command after reset: program P4 line 1. -/
theorem test_withFetchWord : nextOf (step (State.reset.withFetchWord 64 0x11)) =
    some { State.reset with trace := [.response (error .notInitialized)] } := by decide

/-! ### The assembler -/

/-- Program P5 line 1: `INIT 1` is `INIT 1, 1, 64`. -/
theorem test_assemble_pseudo : assemble ['I', 'N', 'I', 'T', ' ', '1'] = .ok (some (commandOf 0x20 1 1 0x40)) := by decide
/-- Program P3 line 6, with a comment: `LDSTATE 3, 0x8899, 16 ; c`. -/
theorem test_assemble_hex : assemble ['L', 'D', 'S', 'T', 'A', 'T', 'E', ' ', '3', ',', ' ', '0', 'x', '8', '8', '9', '9', ',', ' ', '1',
    '6', ' ', ';', ' ', 'c'] = .ok (some (commandOf 0x21 3 0x8899 0x10)) := by decide
/-- Program P3 line 5: `NEXTBYTES -1`. -/
theorem test_assemble_negative : assemble ['N', 'E', 'X', 'T', 'B', 'Y', 'T', 'E', 'S', ' ', '-', '1'] =
    .ok (some (commandOf 0x16 0xFFFFFFFFFFFFFFFF 0 0)) := by decide
/-- R59: `_` separates digits; a negative literal does not fit a uint64 operand; a line may hold a comment only. -/
theorem test_assemble_rules :
    integerLiteral ['0', 'x', 'F', '_', 'F'] = some 255 ∧ integerLiteral ['0', 'x', '_', 'F'] = none ∧
      assembleLine ⟨.nextn, [-1]⟩ = .error .literalOutOfRange ∧ assembleLine ⟨.nextu64, [1]⟩ = .error .wrongOperandCount ∧
      assemble [' ', ';', 'x'] = .ok none ∧ assemble ['N', 'O', 'P'] = .error .unknownMnemonic ∧
      assemble ['N', 'E', 'X', 'T', 'N', ' ', 'q'] = .error .badLiteral := by decide

/-! ### Witnesses: states and operands that meet the hypotheses of each statement, clause by clause -/

/-- DecoderReadsHeaderAlone, both clauses, at the ends of the listed ranges; EncodeDecodeClearsUnreadWords. -/
theorem witness_decoder_clauses :
    headerRsvd (Command.h (commandOf 0x100 0 0 0)) ≠ 0 ∧ headerOpc (Command.h (commandOf 0x22 0 0 0)) ∉ listedOpcodes ∧
      (headerRsvd (Command.h (commandOf 0x21 7 8 9)) = 0 ∧ headerOpc (Command.h (commandOf 0x21 7 8 9)) ∈ listedOpcodes) ∧
      decode (commandOf 0x21 7 8 9) = .ok (.ldstate 7 8 9) := by decide
/-- UnreadWordsChangeNothing: NEXTN 5 with and without words it does not read. -/
theorem witness_unread_words :
    decode (commandOf 0x10 5 0 0) = .ok (.nextn 5) ∧
      clearUnread (commandOf 0x10 5 6 7) (.nextn 5) = clearUnread (commandOf 0x10 5 0 0) (.nextn 5) ∧
      commandOf 0x10 5 6 7 ≠ commandOf 0x10 5 0 0 := by decide
/-- ReservedHeaderIsIllegal and UnlistedOpcodeIsIllegal; StatusesAsTabled and ErrorsArePrecise, on an illegal header. -/
theorem witness_illegal_headers :
    let s : State := { st 1 2 3 with pending := [.command (commandOf 0x111 0 0 0), .command (commandOf 0x17 0 0 0)] }
    s.pending = .command (commandOf 0x111 0 0 0) :: [.command (commandOf 0x17 0 0 0)] ∧
      headerRsvd (Command.h (commandOf 0x111 0 0 0)) ≠ 0 ∧ headerOpc (Command.h (commandOf 0x17 0 0 0)) ∉ listedOpcodes ∧
      decode (commandOf 0x17 0 0 0) = .error (.unlistedOpcode 0x17) := by decide
/-- ErrorsArePrecise: a next state whose last event is a response that is not OK. -/
theorem witness_error_response : ∃ (s t : State) (r : Response),
    s.pending = .command (commandOf 0x10 0 0 0) :: [] ∧ step s = .next t ∧ t.trace.getLast? = some (.response r) ∧ r.status ≠ .ok :=
  ⟨{ st 1 2 3 with pending := [.command (commandOf 0x10 0 0 0)] }, { st 1 2 3 with trace := [.response (error .outOfRange)] },
    error .outOfRange, rfl, rfl, rfl, by decide⟩
/-- InitPseudoInstructionsExpand and LiteralsOutOfRangeAreErrors: literals at the ends of their ranges, in and out. -/
theorem witness_literals :
    (0 ≤ (0 : Int) ∧ (2 : Int) ^ 64 - 1 < 2 ^ 64) ∧ ¬ (0 ≤ (-1 : Int) ∧ (-1 : Int) < 2 ^ 64) ∧
      ¬ (0 ≤ (2 : Int) ^ 64 ∧ (2 : Int) ^ 64 < 2 ^ 64) ∧ ¬ (-2 ^ 63 ≤ (-2 : Int) ^ 63 - 1) := by decide
/-- LiteralsOutOfRangeAreErrors, its first two clauses: LDSTATE with literals that fit at the ends of their range, INIT with a negative `buf`, and
NEXTN with no operand. -/
theorem witness_operand_literals :
    (([0, 2 ^ 64 - 1, 64] : List Int).length = (operandKinds .ldstate).length ∧ List.Forall₂ FitsOperand (operandKinds .ldstate) [0, 2 ^ 64 - 1, 64]) ∧
      (([1, -1, 64] : List Int).length = (operandKinds .init).length ∧ ¬ List.Forall₂ FitsOperand (operandKinds .init) [1, -1, 64]) ∧
      (([] : List Int).length ≠ (operandKinds .nextn).length ∧ ¬ (Mnemonic.nextn = .init ∧ (([] : List Int).length = 1 ∨ ([] : List Int).length = 2))) := by
  decide
/-- StepRunsDecodedCommand and EveryCommandGetsOneResponse: a command with a VALUE and one without. -/
theorem witness_step_command :
    ({ st 1 2 3 with pending := [.command (commandOf 0x11 0 0 0)] } : State).pending = .command (commandOf 0x11 0 0 0) :: [] ∧
      decode (commandOf 0x11 0 0 0) = .ok .nextu64 ∧ decode (commandOf 0x16 2 0 0) = .ok (.nextbytes 2) ∧
      hasValue (.nextbytes 2) = false := by decide
/-- IdleBlockKeepsState. -/
theorem witness_idle : (st 1 2 3).pending = [] := rfl
/-- StepPerformsOneAct, ValidChangesOnlyByResetAndStateCommands (first clause). -/
theorem witness_reset_step : step { st 1 2 3 with pending := [.reset] } = .next State.reset ∧ (st 1 2 3).valid = true := ⟨rfl, rfl⟩
/-- ValidChangesOnlyByResetAndStateCommands, second clause. -/
theorem witness_valid_set : ∃ t, step { State.reset with pending := [.command (commandOf 0x21 0 0 0x40)] } = .next t ∧ t.valid = true :=
  ⟨_, rfl, rfl⟩
/-- The same by an INIT with the least seed the default check accepts. -/
theorem witness_valid_set_by_init :
    ∃ t, step { State.reset with pending := [.command (commandOf 0x20 1 0 0x40)] } = .next t ∧ t.valid = true := ⟨_, rfl, rfl⟩
/-- StepStopsOnlyOnInvalidRead and StateReadAnswersElement: element 1 while VALID = 0, element 0 while VALID = 0, and element 3
while VALID = 1. -/
theorem witness_state_reads :
    ({ State.reset with pending := [.stateRead 1] } : State).valid = false ∧ (1 : Fin 4) ≠ 0 ∧
      ({ State.reset with pending := [.stateRead 0] } : State).pending = .stateRead 0 :: [] ∧
      ({ st 1 2 3 with pending := [.stateRead 3] } : State).valid = true := by decide
/-- ResetClearsValid. -/
theorem witness_reset : ({ st 1 2 3 with pending := [.reset] } : State).pending = .reset :: [] := rfl
/-- ReinterpretationRoundTrips: the ends of the signed range. -/
theorem witness_signed_range : (-2 : Int) ^ 63 ≤ -9223372036854775808 ∧ (9223372036854775807 : Int) < 2 ^ 63 := by decide
/-- NextnTakesField and NextnAnswersStreamBits: widths 1 and 64, both cases of R90, at n = FRESH and n = FRESH + 1; a width of 0 and of 65. -/
theorem witness_nextn :
    (st 1 5 63).valid = true ∧ FreshInRange (st 1 5 63) ∧ (1 ≤ (63 : Word).toNat ∧ (63 : Word).toNat ≤ (st 1 5 63).fresh.toNat) ∧
      ((64 : Word).toNat ≤ 64 ∧ (st 1 5 63).fresh.toNat < (64 : Word).toNat) ∧ (0 : Word).toNat < 1 ∧ 64 < (65 : Word).toNat ∧
      State.reset.valid = false := by decide
/-- TakesFollowTheStream: widths 1 and 64 from a full and from an empty buffer. -/
theorem witness_takes : FreshInRange (st 1 5 64) ∧ FreshInRange (st 1 5 0) ∧ ∀ n ∈ [1, 64], 1 ≤ n ∧ n ≤ 64 := by decide
/-- StreamInvariantOverCommands: a list with an accepted and a failing command. -/
theorem witness_generator_list : (st 1 5 3).valid = true ∧ FreshInRange (st 1 5 3) ∧ (∀ i ∈ [Instr.nextn 0, Instr.nextu64], isGenerator i = true) := by decide
/-- BlockRefinesStreamMachine: an accepted generator, a stateless command, and a generator that is not accepted. -/
theorem witness_refinement :
    FreshInRange (st 1 5 3) ∧ isGenerator .nextu64 = true ∧ expectedStatus ts .nextu64 true = .ok ∧
      isGenerator (.asi64 0) = false ∧ expectedStatus ts .nextu64 false ≠ .ok := by decide
/-- StaleBitsAreUnobservable: two states that differ above FRESH. -/
theorem witness_stale_bits : SameFreshBits (st 1 5 3) (st 1 0xFFFFFFFFFFFFFFFD 3) ∧ st 1 5 3 ≠ st 1 0xFFFFFFFFFFFFFFFD 3 := by decide
/-- BufferAboveFresh, InitBuildsState, LdstateRestoresState, InitFollowsSeedValid, InitFormsStartTheStream: the ends of the ranges of a
seed and of FRESH, in and out. -/
theorem witness_state_commands :
    0 < sint64 1 ∧ 0 < sint64 0x7FFFFFFFFFFFFFFF ∧ (64 : Word).toNat ≤ 64 ∧ 64 < (65 : Word).toNat ∧ ¬ 0 < sint64 0 ∧
      ¬ 0 < sint64 0x8000000000000000 ∧ ts.seedValid 1 = true ∧ ts.seedValid 0 = false := by decide
/-- StepKeepsFreshInRange. -/
theorem witness_step_invariant : FreshInRange (st 1 2 64) ∧ step (st 1 2 64) = .next (st 1 2 64) := ⟨by decide, rfl⟩
/-- DrawCountsAsTabled, Nextu64AnswersStreamBits, Nexti64AnswersSignedBits, Nextf64AnswersUnitDouble, SavedStateContinuesAlike: FRESH at both
ends of its range with VALID = 1, and VALID = 0. -/
theorem witness_valid_states :
    FreshInRange (st 1 2 0) ∧ (st 1 2 0).valid = true ∧ FreshInRange (st 1 2 64) ∧ (st 1 2 64).valid = true ∧
      State.reset.valid = false := by decide
/-- Nexti64AnswersSignedBits: stream bit 63 clear and set. -/
theorem witness_sign_bit : streamBit hardware (st 1 0 64) 63 = false ∧ streamBit hardware (st 1 0x8000000000000000 64) 63 = true := by
  decide
/-- Nextu64bScalesStreamBits, Nextu64rScalesStreamBits, Nextu64bPowerOfTwoBound, RangeResultCounts: bounds at the ends of their ranges. -/
theorem witness_bounds :
    (0 : Word).toNat = 0 ∧ (1 : Word).toNat ≠ 0 ∧ (5 : Word).toNat ≤ (5 : Word).toNat ∧
      (0xFFFFFFFFFFFFFFFE : Word).toNat < (0xFFFFFFFFFFFFFFFF : Word).toNat ∧ 0 < (1 : Word).toNat ∧ 63 < 64 ∧
      (0 < 1 ∧ 1 < 2 ^ 64) := by decide
/-- Nextu64bScalesStreamBits, Nextu64rScalesStreamBits, Nextu64bPowerOfTwoBound, NextbytesAnswersStreamBytes: the premises of each accepted
case together, and of each NOT_INITIALIZED case. -/
theorem witness_accepted_generators :
    ((1 : Word).toNat ≠ 0 ∧ (st 1 2 63).valid = true ∧ FreshInRange (st 1 2 63)) ∧
      ((0xFFFFFFFFFFFFFFFE : Word).toNat < (0xFFFFFFFFFFFFFFFF : Word).toNat ∧ (st 1 2 63).valid = true ∧ FreshInRange (st 1 2 63)) ∧
      (0 < 64 ∧ (st 1 2 64).valid = true ∧ FreshInRange (st 1 2 64)) ∧
      (0 ≤ sint64 7 ∧ (st 1 2 64).valid = true ∧ FreshInRange (st 1 2 64)) ∧
      ((1 : Word).toNat ≠ 0 ∧ (0 : Word).toNat < (1 : Word).toNat ∧ 0 ≤ sint64 0 ∧ State.reset.valid = false) := by decide
/-- UnitF64TowardZeroIsLargestBelow, UnitF64NearestTiesToEven: a binary64 value that is not zero, and a value that is. -/
theorem witness_f64 : IsF64 0x3FE0000000000000 ∧ IsF64 0 := by decide
/-- UnitF64ExactAndOne: both ends of the exact range and of the range RNE takes to 1.0. -/
theorem witness_f64_ranges :
    (0 : Word).toNat < 2 ^ 53 ∧ (0x1FFFFFFFFFFFFF : Word).toNat < 2 ^ 53 ∧ 2 ^ 64 - 1024 ≤ (0xFFFFFFFFFFFFFC00 : Word).toNat ∧
      ¬ 2 ^ 64 - 1024 ≤ (0xFFFFFFFFFFFFFBFF : Word).toNat := by decide
/-- UnitF64NearestTiesToEven, last clause: v = 2^53 + 1 is a tie between 0x3F40000000000000 and 0x3F40000000000001. -/
theorem witness_f64_tie :
    IsF64 0x3F40000000000001 ∧ f64Value 0x3F40000000000001 ≠ f64Value (unitF64 .rne 0x0020000000000001) ∧
      |f64Value 0x3F40000000000001 - unitValue 0x0020000000000001| =
        |f64Value (unitF64 .rne 0x0020000000000001) - unitValue 0x0020000000000001| := by
  have h : unitF64 .rne 0x0020000000000001 = 0x3F40000000000000 := by decide
  have n0 : (0x3F40000000000000 : Word) ≠ 0 := by decide
  have n1 : (0x3F40000000000001 : Word) ≠ 0 := by decide
  have v : (0x0020000000000001 : Word).toNat = 9007199254740993 := by decide
  have a : f64Exponent 0x3F40000000000001 = 1012 ∧ f64Fraction 0x3F40000000000001 = 1 := by decide
  have b : f64Exponent 0x3F40000000000000 = 1012 ∧ f64Fraction 0x3F40000000000000 = 0 := by decide
  refine ⟨by decide, ?_, ?_⟩ <;> rw [h] <;> simp only [f64Value, unitValue, if_neg n0, if_neg n1, v, a, b] <;> norm_num [abs_of_pos, abs_of_neg]
/-- NextbytesAnswersStreamBytes: a negative count, a count of 0, the largest count, and a byte of the list. -/
theorem witness_counts :
    sint64 0xFFFFFFFFFFFFFFFF < 0 ∧ 0 ≤ sint64 0 ∧ 0 ≤ sint64 0x7FFFFFFFFFFFFFFF ∧ ([7] : List Byte)[0]? = some 7 := by decide
/-- EightBytesOfAWordAreLittleEndian. -/
theorem witness_empty_buffer : (st 1 2 0).valid = true ∧ (st 1 2 0).fresh = 0 := by decide
/-- CommandFrame: next states of a stateless command, of a generator with VALID 0 and 1, and of INIT. -/
theorem witness_frame :
    (∃ t, exec (.mulhi 2 3) (st 1 2 3) = .next t) ∧ (∃ t, exec .nextu64 State.reset = .next t) ∧
      (∃ t, exec .nextu64 (st 1 2 3) = .next t) ∧ (∃ t, exec (.init 1 2 3) (st 1 2 3) = .next t) :=
  ⟨⟨_, rfl⟩, ⟨_, rfl⟩, ⟨_, rfl⟩, ⟨_, rfl⟩⟩
/-- GeneratorsFailUntilInitialised: other commands from reset, then a generator with a legal operand. -/
theorem witness_uninitialised :
    State.reset.valid = false ∧
      (∀ i ∈ [Instr.asi64 1, Instr.nextu64], ∀ a b c, i ≠ .init a b c ∧ i ≠ .ldstate a b c) ∧
      isGenerator (.nextn 64) = true ∧ (Instr.nextn 64).wellFormed hardware = true := by
  refine ⟨rfl, ?_, rfl, by decide⟩
  intro i hi a b c
  fin_cases hi <;> simp

end Sys2Proof.Tests
end

section
/-! This hardware as the parametric block at the parameter values of spec/00_scope.md R5. -/

namespace Sys2Proof.Proofs

open Sys2Proof.Machine Sys2Proof.Laws

/-- The parametric step does nothing with the parameters but hand them to the commands, so it agrees with `step` as soon as
the commands do (`execWith_hardware`). -/
theorem stepWith_hardware (s : State) : stepWith hardware s = step s := by
  have hexec : execWith hardware = exec := by
    funext i t
    exact execWith_hardware i t
  rw [stepWith, step, hexec]

/-- The seed check of R5's column "value for this hardware". -/
theorem hardware_seedValid_iff (x : Word) : hardware.seedValid x = true ↔ 0 < sint64 x :=
  decide_eq_true_iff

/-- Settles O19: `exec` agrees with the parametric commands arm by arm, `step` then follows, and the three parameter values
are those of R5. -/
theorem hardwareIsParametricBlock : Obligations.HardwareIsParametricBlock :=
  ⟨fun s => (stepWith_hardware s).symm, fun i s => (execWith_hardware i s).symm, rfl, hardware_seedValid_iff, rfl⟩

end Sys2Proof.Proofs
end

section
/-! A run of takes is one long take: what `takeMany` leaves in each element, said of the sum of its widths
(spec/10_state.md R29; spec/42_bitfield.md R90, R92). Each law is the single take's law of Laws/Ops.lean, composed along the list. -/

namespace Sys2Proof.Proofs

open Sys2Proof.Machine Sys2Proof.Safety Sys2Proof.Laws

variable {P : Params} {s : State}

/-- Taking `n` and then `m` bits draws the words that taking `n + m` bits draws: what the first take leaves fresh is the rest of
its own last word. -/
theorem drawsNeeded_add {f : Nat} (n m : Nat) (hf : f ≤ 64) :
    drawsNeeded f (n + m) = drawsNeeded f n + drawsNeeded (f + 64 * drawsNeeded f n - n) m := by
  unfold drawsNeeded
  omega

theorem takeMany_freshInRange {ns : List Nat} (hn : ∀ n ∈ ns, n ≤ 64) (hs : FreshInRange s) :
    FreshInRange (takeMany P ns s).2 := by
  induction ns generalizing s with
  | nil => exact hs
  | cons n ns ih =>
    obtain ⟨hn, hns⟩ := List.forall_mem_cons.1 hn
    exact ih hns (take_freshInRange hn hs)

theorem takeMany_fresh {ns : List Nat} (hn : ∀ n ∈ ns, n ≤ 64) (hs : FreshInRange s) :
    (takeMany P ns s).2.fresh.toNat = s.fresh.toNat + 64 * drawsNeeded s.fresh.toNat ns.sum - ns.sum := by
  induction ns generalizing s with
  | nil => simp [takeMany, drawsNeeded_of_le]
  | cons n ns ih =>
    obtain ⟨hn, hns⟩ := List.forall_mem_cons.1 hn
    have hfresh := take_fresh (P := P) (s := s) hn
    have hle : n ≤ s.fresh.toNat + 64 * drawsNeeded s.fresh.toNat n := by unfold drawsNeeded; omega
    rw [takeMany, ih hns (take_freshInRange hn hs), List.sum_cons, drawsNeeded_add n ns.sum hs, hfresh]
    omega

theorem takeMany_cursor {ns : List Nat} (hn : ∀ n ∈ ns, n ≤ 64) (hs : FreshInRange s) :
    (takeMany P ns s).2.cursor = cursorAfter P (drawsNeeded s.fresh.toNat ns.sum) s.cursor := by
  induction ns generalizing s with
  | nil => simp [takeMany, drawsNeeded_of_le, cursorAfter]
  | cons n ns ih =>
    obtain ⟨hn, hns⟩ := List.forall_mem_cons.1 hn
    rw [takeMany, ih hns (take_freshInRange hn hs), List.sum_cons, drawsNeeded_add n ns.sum hs, cursorAfter_add,
      take_cursor hn, take_fresh hn]

theorem takeMany_trace {ns : List Nat} (hn : ∀ n ∈ ns, n ≤ 64) (hs : FreshInRange s) :
    (takeMany P ns s).2.trace = s.trace ++ drawEvents P s.cursor (drawsNeeded s.fresh.toNat ns.sum) := by
  induction ns generalizing s with
  | nil => simp [takeMany, drawsNeeded_of_le, drawEvents]
  | cons n ns ih =>
    obtain ⟨hn, hns⟩ := List.forall_mem_cons.1 hn
    rw [takeMany, ih hns (take_freshInRange hn hs), List.sum_cons, drawsNeeded_add n ns.sum hs, drawEvents_add,
      take_cursor hn, take_fresh hn, take_trace hn, List.append_assoc]

/-- What is left in BUFFER after two takes in a row is what is left after the one take of both widths. -/
theorem bufferLeft_take {n : Nat} (m f' : Nat) (hn : n ≤ 64) (hs : FreshInRange s)
    (hf' : f' = (take P n s).2.fresh.toNat + 64 * drawsNeeded (take P n s).2.fresh.toNat m - m) :
    bufferLeft P m (take P n s).2 f' = bufferLeft P (n + m) s f' := by
  have hfresh := take_fresh (P := P) (s := s) hn
  have hrange : (take P n s).2.fresh.toNat ≤ 64 := take_freshInRange hn hs
  unfold bufferLeft
  rw [drawsNeeded_add n m hs, ← hfresh]
  cases hm : drawsNeeded (take P n s).2.fresh.toNat m with
  | succ k => simp only [take_cursor hn, Nat.add_eq, rawWord_add]
  | zero =>
    have hle : m ≤ (take P n s).2.fresh.toNat := by unfold drawsNeeded at hm; omega
    rw [take_buffer hn, bufferLeft]
    cases drawsNeeded s.fresh.toNat n with
    | zero => simp only [Nat.div_div_eq_div_mul, ← pow_add]
    | succ k =>
      have hshift : 64 - f' = 64 - (take P n s).2.fresh.toNat + m := by omega
      simp only [Nat.div_div_eq_div_mul, ← pow_add, hshift]

theorem takeMany_buffer {ns : List Nat} (hn : ∀ n ∈ ns, n ≤ 64) (hs : FreshInRange s) :
    (takeMany P ns s).2.buffer.toNat = bufferLeft P ns.sum s (takeMany P ns s).2.fresh.toNat := by
  induction ns generalizing s with
  | nil => simp [takeMany, bufferLeft, drawsNeeded_of_le]
  | cons n ns ih =>
    obtain ⟨hn, hns⟩ := List.forall_mem_cons.1 hn
    have hs' := take_freshInRange (P := P) hn hs
    rw [takeMany, ih hns hs', List.sum_cons]
    exact bufferLeft_take ns.sum _ hn hs (takeMany_fresh hns hs')

/-- After a run of takes the stream goes on with the bit after the last one taken. -/
theorem takeMany_streamBit {ns : List Nat} (hn : ∀ n ∈ ns, n ≤ 64) (hs : FreshInRange s) (k : Nat) :
    streamBit P (takeMany P ns s).2 k = streamBit P s (ns.sum + k) := by
  induction ns generalizing s with
  | nil => simp [takeMany]
  | cons n ns ih =>
    obtain ⟨hn, hns⟩ := List.forall_mem_cons.1 hn
    rw [takeMany, ih hns (take_freshInRange hn hs), take_streamBit hn hs, List.sum_cons, Nat.add_assoc]

/-- The bits of the field `Take(n)` returns are the next `n` bits of the stream. -/
theorem fieldBits_take {n : Nat} (hn : n ≤ 64) (hs : FreshInRange s) :
    fieldBits n (take P n s).1 = (List.range n).map (streamBit P s) := by
  refine List.map_congr_left fun i hi => ?_
  have hin : i < n := List.mem_range.1 hi
  rw [take_getLsbD hn hs i (by omega), decide_eq_true hin, Bool.true_and]

/-- The fields of a run of takes, joined in order, are the first bits of the stream (20_memory.md R43). -/
theorem takeMany_fieldBits {ns : List Nat} (hn : ∀ n ∈ ns, n ≤ 64) (hs : FreshInRange s) :
    (List.zipWith fieldBits ns (takeMany P ns s).1).flatten = (List.range ns.sum).map (streamBit P s) := by
  induction ns generalizing s with
  | nil => simp [takeMany]
  | cons n ns ih =>
    obtain ⟨hn, hns⟩ := List.forall_mem_cons.1 hn
    have htail : streamBit P (take P n s).2 = streamBit P s ∘ (n + ·) := funext (take_streamBit hn hs)
    rw [takeMany, List.zipWith_cons_cons, List.flatten_cons, fieldBits_take hn hs, ih hns (take_freshInRange hn hs), htail,
      List.sum_cons, List.range_add, List.map_append, List.map_map]

end Sys2Proof.Proofs

namespace Sys2Proof.Proofs

open Sys2Proof.Laws

/-- Settles O27: each part is one law of a run of takes, by induction on the widths. -/
theorem takesFollowTheStream : Obligations.TakesFollowTheStream := by
  intro P ns s hs hns
  have hn : ∀ n ∈ ns, n ≤ 64 := fun n hmem => (hns n hmem).2
  exact ⟨takeMany_fieldBits hn hs, takeMany_trace hn hs, takeMany_cursor hn hs, takeMany_streamBit hn hs⟩

end Sys2Proof.Proofs
end

section
/-! The outcome of a decoded command, with its response: `execWith_cases` of Laws/Step.lean says which kind of answer a command
gives; here the response and the loaded elements are named too (spec/10_state.md R28; spec/60_exceptions.md R131 to R133). -/

namespace Sys2Proof.Proofs

open Sys2Proof.Machine Sys2Proof.Safety Sys2Proof.Laws

/-- The response of an accepted generator from the fields its `Take` calls return. -/
def fieldsResponse (P : Params) (i : Instr) (fields : List Word) : Response :=
  match i with
  | .nextn _ | .nextu64 | .nexti64 => valueResponse (fields.headD 0)
  | .nextu64b max => valueResponse (mulHigh (fields.headD 0) max)
  | .nextu64r min max =>
    valueResponse (BitVec.ofNat 64 (uint64 min + scaleHigh (uint64 (fields.headD 0)) (uint64 max - uint64 min)))
  | .nextf64 => valueResponse (unitF64 P.rounding (fields.headD 0))
  | .nextbytes _ => bytesResponse (fields.map (fun r => r.extractLsb' 0 8))
  | .mulhi _ _ | .asi64 _ | .asu64 _ | .init _ _ _ | .ldstate _ _ _ => emptyResponse

/-- What a decoded command leaves, one constructor for each way it can go. -/
inductive CommandOutcome (P : Params) (i : Instr) (s : State) : State → Prop where
  /-- an operand error, or a generator while VALID = 0 -/
  | failed (hfail : expectedStatus P i s.valid ≠ .ok) :
      CommandOutcome P i s (s.emit (.response ⟨expectedStatus P i s.valid, 0, []⟩))
  /-- an accepted generator -/
  | generated (hok : expectedStatus P i s.valid = .ok) (hgen : isGenerator i = true) :
      CommandOutcome P i s ((takeMany P (takeWidths i) s).2.emit
        (.response (fieldsResponse P i (takeMany P (takeWidths i) s).1)))
  /-- MULHI, ASI64 or ASU64 -/
  | stateless (hok : expectedStatus P i s.valid = .ok) (hgen : isGenerator i = false) (hst : isStateCommand i = false) :
      CommandOutcome P i s (s.emit (.response (acceptedResponse P i (streamBit P s))))
  /-- an accepted INIT or LDSTATE -/
  | loaded (hok : expectedStatus P i s.valid = .ok) (hst : isStateCommand i = true) :
      CommandOutcome P i s ((s.load (operandWords i).1 (operandWords i).2.1
        ((operandWords i).2.2.extractLsb' 0 7)).emit (.response emptyResponse))

variable {P : Params} {i : Instr} {s t : State}

theorem isGenerator_of_isStateCommand (h : isStateCommand i = true) : isGenerator i = false := by
  cases i <;> simp_all [isStateCommand, isGenerator]

/-- An accepted generator found VALID = 1 (60_exceptions.md R133). -/
theorem valid_of_generator_ok (hok : expectedStatus P i s.valid = .ok) (hgen : isGenerator i = true) : s.valid = true := by
  cases hv : s.valid
  · have hw := wellFormed_of_expectedStatus_ok hok
    simp [expectedStatus, hw, hgen, hv] at hok
  · rfl

/-- While VALID = 1 the operands alone decide whether a command is accepted (60_exceptions.md R133). -/
theorem expectedStatus_ok_iff_of_valid (hv : s.valid = true) :
    expectedStatus P i s.valid = .ok ↔ i.wellFormed P = true := by
  refine ⟨wellFormed_of_expectedStatus_ok, fun hw => ?_⟩
  simp [expectedStatus, hw, hv]

theorem wellFormed_init_iff {seed buf fresh : Word} :
    (Instr.init seed buf fresh).wellFormed P = true ↔ P.seedValid seed = true ∧ fresh.toNat ≤ 64 := by
  simp [Instr.wellFormed]

/-- INIT and LDSTATE are accepted with FRESH operands of at most 64 only (40_state_commands.md R70, R71). -/
theorem freshOperand_le_of_wellFormed (hst : isStateCommand i = true) (hw : i.wellFormed P = true) :
    (operandWords i).2.2.toNat ≤ 64 := by
  cases i with
  | init seed buf fresh => exact (wellFormed_init_iff.1 hw).2
  | ldstate cursor buf fresh => exact of_decide_eq_true hw
  | _ => cases hst

/-- A failing command raises the error of its status and does nothing else. -/
theorem execWith_failed (hfail : expectedStatus P i s.valid ≠ .ok) :
    execWith P i s = .next (s.emit (.response ⟨expectedStatus P i s.valid, 0, []⟩)) := by
  obtain ⟨st, -, hst, hexec⟩ | ⟨hok, -⟩ | ⟨hok, -⟩ | ⟨hok, -⟩ := execWith_cases P i s
  · rw [hexec, hst, raiseError_eq]
  all_goals exact absurd hok hfail

/-- An accepted generator makes its takes and answers from their fields. -/
theorem execWith_generator (hgen : isGenerator i = true) (hv : s.valid = true) (hw : i.wellFormed P = true) :
    execWith P i s = .next ((takeMany P (takeWidths i) s).2.emit
      (.response (fieldsResponse P i (takeMany P (takeWidths i) s).1))) := by
  cases i with
  | nextn n =>
    have hwidth : ¬ (uint64 n < 1 ∨ 64 < uint64 n) := by
      simp only [Instr.wellFormed, Bool.and_eq_true, decide_eq_true_eq] at hw
      simp only [uint64_eq_toNat]
      omega
    simp only [execWith, nextnWith, if_neg hwidth, whenValid_of_valid _ hv]
    rfl
  | nextu64 => exact whenValid_of_valid _ hv
  | nexti64 => exact whenValid_of_valid _ hv
  | nextf64 => exact whenValid_of_valid _ hv
  | nextu64b max =>
    have hbound : ¬ uint64 max = 0 := Nat.one_le_iff_ne_zero.1 (of_decide_eq_true hw)
    simp only [execWith, nextu64bWith, if_neg hbound, whenValid_of_valid _ hv]
    rfl
  | nextu64r min max =>
    have hbounds : ¬ ¬ uint64 min < uint64 max := not_not_intro (of_decide_eq_true hw)
    simp only [execWith, nextu64rWith, if_neg hbounds, whenValid_of_valid _ hv]
    rfl
  | nextbytes count =>
    have hcount : 0 ≤ count.toInt := of_decide_eq_true hw
    have hneg : ¬ count.toInt < 0 := not_lt.2 hcount
    simp only [execWith, nextbytesWith, sint64_eq_toInt, if_neg hneg, whenValid_of_valid _ hv, toInt_toNat_of_nonneg hcount,
      takeBytes_eq_takeMany]
    rfl
  | _ => cases hgen

/-- A stateless command answers from its operands; the stream `σ` is any, for it is not read. -/
theorem execWith_stateless (σ : Nat → Bool) (hgen : isGenerator i = false) (hst : isStateCommand i = false) :
    execWith P i s = .next (s.emit (.response (acceptedResponse P i σ))) := by
  cases i with
  | mulhi x y => rfl
  | asi64 u => rfl
  | asu64 v => rfl
  | init _ _ _ | ldstate _ _ _ => cases hst
  | _ => cases hgen

/-- An accepted INIT or LDSTATE writes its three operands and VALID = 1. -/
theorem execWith_stateCommand (hst : isStateCommand i = true) (hw : i.wellFormed P = true) :
    execWith P i s = .next ((s.load (operandWords i).1 (operandWords i).2.1
      ((operandWords i).2.2.extractLsb' 0 7)).emit (.response emptyResponse)) := by
  have hfresh := freshOperand_le_of_wellFormed hst hw
  cases i with
  | init seed buf fresh =>
    obtain ⟨hseed, -⟩ := wellFormed_init_iff.1 hw
    simp only [execWith, initWith, hseed, if_true]
    exact loadState_of_le hfresh
  | ldstate cursor buf fresh => exact loadState_of_le hfresh
  | _ => cases hst

/-- Every decoded command has a next state, and it is one of the four outcomes. -/
theorem execWith_outcome (P : Params) (i : Instr) (s : State) : ∃ t, execWith P i s = .next t ∧ CommandOutcome P i s t := by
  by_cases hok : expectedStatus P i s.valid = .ok
  · have hw := wellFormed_of_expectedStatus_ok hok
    cases hgen : isGenerator i with
    | true => exact ⟨_, execWith_generator hgen (valid_of_generator_ok hok hgen) hw, .generated hok hgen⟩
    | false =>
      cases hst : isStateCommand i with
      | true => exact ⟨_, execWith_stateCommand hst hw, .loaded hok hst⟩
      | false => exact ⟨_, execWith_stateless _ hgen hst, .stateless hok hgen hst⟩
  · exact ⟨_, execWith_failed hok, .failed hok⟩

/-- The outcomes of this hardware's commands: what a next state of `exec` can be. -/
theorem outcome_of_exec (h : exec i s = .next t) : CommandOutcome hardware i s t := by
  obtain ⟨t', hexec, houtcome⟩ := execWith_outcome hardware i s
  rw [execWith_hardware, h] at hexec
  cases hexec
  exact houtcome

/-! ### What every outcome keeps -/

theorem CommandOutcome.pending (h : CommandOutcome P i s t) : t.pending = s.pending := by
  cases h <;> simp

/-- VALID after a command, outcome by outcome (10_state.md R28). -/
theorem CommandOutcome.valid (h : CommandOutcome P i s t) : t.valid = validAfter P i s.valid := by
  cases h with
  | failed hfail => simp [validAfter, hfail]
  | generated hok hgen => simp [validAfter, valid_of_generator_ok hok hgen]
  | stateless hok hgen hst => simp [validAfter, hst]
  | loaded hok hst => simp [validAfter, hok, hst]

theorem CommandOutcome.freshInRange (h : CommandOutcome P i s t) (hs : FreshInRange s) : FreshInRange t := by
  cases h with
  | failed hfail => exact hs
  | generated hok hgen =>
    exact takeMany_freshInRange (takeWidths_le_of_wellFormed (wellFormed_of_expectedStatus_ok hok)) hs
  | stateless hok hgen hst => exact hs
  | loaded hok hst =>
    have hle := freshOperand_le_of_wellFormed hst (wellFormed_of_expectedStatus_ok hok)
    exact (freshOperand_toNat hle).trans_le hle

/-- INIT and LDSTATE write all four elements or none (10_state.md R28). -/
theorem CommandOutcome.elements_of_stateCommand (h : CommandOutcome P i s t) (hst : isStateCommand i = true) :
    SameElements s t ∨ (t.valid = true ∧ t.cursor = (operandWords i).1 ∧ t.buffer = (operandWords i).2.1 ∧
      t.fresh.toNat = (operandWords i).2.2.toNat) := by
  cases h with
  | failed hfail => exact .inl ⟨rfl, rfl, rfl, rfl⟩
  | generated hok hgen => simp [isGenerator_of_isStateCommand hst] at hgen
  | stateless hok hgen hst' => simp [hst] at hst'
  | loaded hok _ =>
    exact .inr ⟨rfl, rfl, rfl, freshOperand_toNat (freshOperand_le_of_wellFormed hst (wellFormed_of_expectedStatus_ok hok))⟩

/-- A stateless or failing command leaves all four elements as they were (60_exceptions.md R131). -/
theorem CommandOutcome.sameElements (h : CommandOutcome P i s t)
    (hkeep : isGenerator i = false ∧ isStateCommand i = false ∨ expectedStatus P i s.valid ≠ .ok) : SameElements s t := by
  cases h with
  | failed hfail => exact ⟨rfl, rfl, rfl, rfl⟩
  | generated hok hgen => simp [hgen, hok] at hkeep
  | stateless hok hgen hst => exact ⟨rfl, rfl, rfl, rfl⟩
  | loaded hok hst => simp [hst, hok] at hkeep

end Sys2Proof.Proofs
end

section
/-! The block as a machine over VALID and its bit stream (spec/10_state.md R28, R29; spec/60_exceptions.md R131 to R133): a generator's
response read off the stream, and the refinement, outcome by outcome. -/

namespace Sys2Proof.Proofs

open Sys2Proof.Machine Sys2Proof.Safety Sys2Proof.Laws

variable {P : Params} {i : Instr} {s t : State}

/-- The bytes of a run of `Take(8)` are the stream's, eight bits each (43_generators.md R106). -/
theorem takeMany_bytes (count : Nat) (hs : FreshInRange s) :
    (takeMany P (List.replicate count 8) s).1.map (fun r => r.extractLsb' 0 8) =
      (List.range count).map (fun k => BitVec.ofNat 8 (streamNat (streamDrop (streamBit P s) (8 * k)) 8)) := by
  induction count generalizing s with
  | zero => rfl
  | succ count ih =>
    have hfirst : (take P 8 s).1.extractLsb' 0 8 = BitVec.ofNat 8 (streamNat (streamDrop (streamBit P s) (8 * 0)) 8) := by
      have hdrop : streamDrop (streamBit P s) (8 * 0) = streamBit P s := by funext k; simp [streamDrop]
      rw [hdrop, take_eq_streamNat (by decide) hs]
      apply BitVec.eq_of_toNat_eq
      simp [BitVec.extractLsb'_toNat]
    have hrest : ∀ k, streamDrop (streamBit P (take P 8 s).2) (8 * k) = streamDrop (streamBit P s) (8 * (k + 1)) := by
      intro k
      funext j
      simp only [streamDrop, take_streamBit (show 8 ≤ 64 by decide) hs]
      congr 1
      omega
    rw [List.replicate_succ, takeMany, List.map_cons, ih (take_freshInRange (by decide) hs), List.range_succ_eq_map,
      List.map_cons, List.map_map, hfirst]
    simp only [hrest, Function.comp_def]

/-- The response an accepted generator computes from its fields is the one its operands and the stream give. -/
theorem fieldsResponse_takeMany (hgen : isGenerator i = true) (hw : i.wellFormed P = true) (hs : FreshInRange s) :
    fieldsResponse P i (takeMany P (takeWidths i) s).1 = acceptedResponse P i (streamBit P s) := by
  have hword : (take P 64 s).1 = BitVec.ofNat 64 (streamNat (streamBit P s) 64) := take_eq_streamNat (by decide) hs
  have hnat : (take P 64 s).1.toNat = streamNat (streamBit P s) 64 := by
    rw [hword, BitVec.toNat_ofNat, Nat.mod_eq_of_lt (streamNat_lt _ 64)]
  cases i with
  | nextn n =>
    have hn : n.toNat ≤ 64 := takeWidths_le_of_wellFormed hw _ (List.mem_singleton_self _)
    exact congrArg valueResponse (take_eq_streamNat hn hs)
  | nextu64 | nexti64 => exact congrArg valueResponse hword
  | nextf64 => exact congrArg (fun v => valueResponse (unitF64 P.rounding v)) hword
  | nextu64b max => simp [fieldsResponse, acceptedResponse, takeWidths, takeMany, valueResponse, mulHigh, scaleHigh, hnat]
  | nextu64r min max => simp [fieldsResponse, acceptedResponse, takeWidths, takeMany, valueResponse, scaleHigh, hnat]
  | nextbytes count => exact congrArg bytesResponse (takeMany_bytes _ hs)
  | _ => cases hgen

/-- An accepted generator drops the bits it takes off the stream. -/
theorem acceptedStream_of_generator (σ : Nat → Bool) (hgen : isGenerator i = true) :
    acceptedStream P i σ = streamDrop σ (bitsTaken i) := by
  cases i with
  | nextbytes count => simp [acceptedStream, bitsTaken, takeWidths, Nat.mul_comm]
  | nextn _ | nextu64 | nextu64b _ | nextu64r _ _ | nexti64 | nextf64 => simp [acceptedStream, bitsTaken, takeWidths]
  | _ => cases hgen

theorem acceptedStream_of_stateless (σ : Nat → Bool) (hgen : isGenerator i = false) (hst : isStateCommand i = false) :
    acceptedStream P i σ = σ := by
  cases i with
  | mulhi _ _ | asi64 _ | asu64 _ => rfl
  | init _ _ _ | ldstate _ _ _ => cases hst
  | _ => cases hgen

theorem acceptedStream_of_stateCommand (σ : Nat → Bool) (hst : isStateCommand i = true) :
    acceptedStream P i σ = streamFrom P (operandWords i).1 (operandWords i).2.1 (operandWords i).2.2.toNat := by
  cases i with
  | init _ _ _ | ldstate _ _ _ => rfl
  | _ => cases hst

theorem acceptedResponse_of_stateCommand (σ : Nat → Bool) (hst : isStateCommand i = true) :
    acceptedResponse P i σ = emptyResponse := by
  cases i with
  | init _ _ _ | ldstate _ _ _ => rfl
  | _ => cases hst

theorem expectedResponse_of_ok {v : Bool} {σ : Nat → Bool} (hok : expectedStatus P i v = .ok) :
    expectedResponse P i v σ = acceptedResponse P i σ := if_pos hok

theorem expectedResponse_of_failed {v : Bool} {σ : Nat → Bool} (hfail : expectedStatus P i v ≠ .ok) :
    expectedResponse P i v σ = ⟨expectedStatus P i v, 0, []⟩ := if_neg hfail

/-- What a run of takes and a response leave is what taking the sum of the widths leaves. -/
theorem consumed_takeMany {ns : List Nat} (hn : ∀ n ∈ ns, n ≤ 64) (hs : FreshInRange s) (r : Response) :
    Consumed P ns.sum s r ((takeMany P ns s).2.emit (.response r)) := by
  refine ⟨takeMany_valid ns, takeMany_pending ns, takeMany_cursor hn hs, ?_, takeMany_fresh hn hs, takeMany_buffer hn hs,
    takeMany_streamBit hn hs⟩
  rw [State.emit_trace, takeMany_trace hn hs]

/-- An accepted generator leaves what taking its bits leaves, and answers what its operands and the stream give. -/
theorem consumed_of_generator (hok : expectedStatus P i s.valid = .ok) (hgen : isGenerator i = true) (hs : FreshInRange s) :
    Consumed P (bitsTaken i) s (expectedResponse P i s.valid (streamBit P s))
      ((takeMany P (takeWidths i) s).2.emit (.response (fieldsResponse P i (takeMany P (takeWidths i) s).1))) := by
  have hw := wellFormed_of_expectedStatus_ok hok
  rw [expectedResponse_of_ok hok, ← fieldsResponse_takeMany hgen hw hs]
  exact consumed_takeMany (takeWidths_le_of_wellFormed hw) hs _

/-- The stream after a command, outcome by outcome. -/
theorem CommandOutcome.streamBit_eq (h : CommandOutcome P i s t) (hs : FreshInRange s) (k : Nat) :
    streamBit P t k = streamAfter P i s.valid (streamBit P s) k := by
  cases h with
  | failed hfail => rw [streamAfter, if_neg hfail, streamBit_emit]
  | generated hok hgen =>
    have hn := takeWidths_le_of_wellFormed (wellFormed_of_expectedStatus_ok hok)
    rw [streamAfter, if_pos hok, acceptedStream_of_generator _ hgen, streamBit_emit, takeMany_streamBit hn hs]
    rfl
  | stateless hok hgen hst => rw [streamAfter, if_pos hok, acceptedStream_of_stateless _ hgen hst, streamBit_emit]
  | loaded hok hst =>
    have hle := freshOperand_le_of_wellFormed hst (wellFormed_of_expectedStatus_ok hok)
    rw [streamAfter, if_pos hok, acceptedStream_of_stateCommand _ hst, streamBit_emit, streamBit_load, freshOperand_toNat hle]

theorem CommandOutcome.consumed (h : CommandOutcome P i s t) (hs : FreshInRange s) (hgen : isGenerator i = true)
    (hok : expectedStatus P i s.valid = .ok) :
    Consumed P (bitsTaken i) s (expectedResponse P i s.valid (streamBit P s)) t := by
  cases h with
  | failed hfail => exact absurd hok hfail
  | generated _ _ => exact consumed_of_generator hok hgen hs
  | stateless _ hgen' _ => simp [hgen] at hgen'
  | loaded _ hst => simp [isGenerator_of_isStateCommand hst] at hgen

/-- A command that is no accepted generator gives its response and draws nothing. -/
theorem CommandOutcome.trace_of_no_draw (h : CommandOutcome P i s t)
    (hquiet : isGenerator i = false ∨ expectedStatus P i s.valid ≠ .ok) :
    t.trace = s.trace ++ [.response (expectedResponse P i s.valid (streamBit P s))] := by
  cases h with
  | failed hfail => rw [State.emit_trace, expectedResponse_of_failed hfail]
  | generated hok hgen => simp [hgen, hok] at hquiet
  | stateless hok _ _ => rw [State.emit_trace, expectedResponse_of_ok hok]
  | loaded hok hst =>
    rw [State.emit_trace, State.load_trace, expectedResponse_of_ok hok, acceptedResponse_of_stateCommand _ hst]

end Sys2Proof.Proofs

namespace Sys2Proof.Proofs

/-- Settles O29: every part is read off the command's outcome; an accepted generator is one long take (`consumed_of_generator`). -/
theorem blockRefinesStreamMachine : Obligations.BlockRefinesStreamMachine := by
  intro P i s hs
  obtain ⟨t, hexec, h⟩ := execWith_outcome P i s
  exact ⟨t, hexec, h.freshInRange hs, h.pending, h.valid, h.streamBit_eq hs, h.consumed hs, h.trace_of_no_draw, h.sameElements⟩

end Sys2Proof.Proofs
end

section
/-! Two states a command cannot tell apart (spec/10_state.md R24, R31, R32, R34): they agree on VALID, CURSOR, FRESH and BUFFER's fresh
bits, and every operation keeps it so while the same events pass over the ports. -/

namespace Sys2Proof.Proofs

open Sys2Proof.Machine Sys2Proof.Safety Sys2Proof.Laws

/-- From `s` and `s'` the block has gone on to `t` and `t'` alike: the same events on the ports, the same elements up to BUFFER's stale
bits, and the same BUFFER if BUFFER was the same. -/
structure Alike (s s' t t' : State) : Prop where
  bits : SameFreshBits t t'
  buffer : s'.buffer = s.buffer → t'.buffer = t.buffer
  events : ∃ es, t.trace = s.trace ++ es ∧ t'.trace = s'.trace ++ es

variable {P : Params} {i : Instr} {s s' t t' u u' : State}

theorem Alike.refl (h : SameFreshBits s s') : Alike s s' s s' :=
  ⟨h, id, [], (List.append_nil _).symm, (List.append_nil _).symm⟩

theorem Alike.trans (h : Alike s s' t t') (h' : Alike t t' u u') : Alike s s' u u' := by
  obtain ⟨es, ht, ht'⟩ := h.events
  obtain ⟨fs, hu, hu'⟩ := h'.events
  refine ⟨h'.bits, fun hb => h'.buffer (h.buffer hb), es ++ fs, ?_, ?_⟩
  · rw [hu, ht, List.append_assoc]
  · rw [hu', ht', List.append_assoc]

/-- The same event given to both. -/
theorem Alike.emit (h : Alike s s' t t') (e : PortEvent) : Alike s s' (t.emit e) (t'.emit e) :=
  h.trans ⟨h.bits, id, [e], rfl, rfl⟩

/-- The same elements loaded into both. -/
theorem Alike.load (h : Alike s s' t t') (c b : Word) (f : BitVec 7) : Alike s s' (t.load c b f) (t'.load c b f) :=
  ⟨⟨rfl, rfl, rfl, rfl⟩, fun _ => rfl, h.events⟩

/-- Equal elements before give equal elements after. -/
theorem Alike.sameElements (h : Alike s s' t t') (hb : s'.buffer = s.buffer) : SameElements t t' := by
  obtain ⟨hvalid, hcursor, hfresh, -⟩ := h.bits
  exact ⟨hvalid, hcursor, h.buffer hb, hfresh⟩

theorem sameFreshBits_of_sameElements (h : SameElements s s') : SameFreshBits s s' := by
  obtain ⟨hvalid, hcursor, hbuffer, hfresh⟩ := h
  exact ⟨hvalid, hcursor, hfresh, by rw [hbuffer, hfresh]⟩

/-- Two words agree under `mask n` when their low `n` bits agree; `n` may be above 64. -/
theorem and_mask_eq_iff {x y : Word} {n : Nat} :
    x &&& mask n = y &&& mask n ↔ ∀ k < n, x.getLsbD k = y.getLsbD k := by
  have hbit : ∀ (w : Word) (k : Nat), (w &&& mask n).getLsbD k = (w.getLsbD k && decide (k < n)) := by
    intro w k
    rw [BitVec.getLsbD_and, mask, BitVec.getLsbD_ofNat, Nat.testBit_two_pow_sub_one]
    rcases Nat.lt_or_ge k 64 with hk | hk
    · simp [hk]
    · simp [BitVec.getLsbD_of_ge w k hk]
  constructor
  · intro h k hk
    have := congrArg (fun w => w.getLsbD k) h
    simpa [hbit, hk] using this
  · intro h
    refine BitVec.eq_of_getLsbD_eq fun k _ => ?_
    rw [hbit, hbit]
    by_cases hk : k < n
    · rw [h k hk]
    · simp [hk]

/-- A `Take` reads BUFFER's fresh bits alone, and shifts no stale bit among them. -/
theorem take_alike (n : Nat) (h : SameFreshBits s s') :
    (take P n s').1 = (take P n s).1 ∧ Alike s s' (take P n s).2 (take P n s').2 := by
  obtain ⟨hvalid, hcursor, hfresh, hbits⟩ := h
  rw [hfresh] at hbits
  rcases Nat.lt_or_ge s.fresh.toNat n with hn | hn
  · rw [take_of_lt hn, take_of_lt (by rw [hfresh]; exact hn)]
    simp only [hfresh, hbits, draw_word, hcursor, true_and]
    exact ⟨⟨hvalid, by simp [hcursor], rfl, rfl⟩, fun _ => rfl, [_], rfl, by simp [hcursor]⟩
  · rw [take_of_le hn, take_of_le (by rw [hfresh]; exact hn), hfresh]
    have hlow : ∀ k < s.fresh.toNat, s'.buffer.getLsbD k = s.buffer.getLsbD k := and_mask_eq_iff.1 hbits
    have hleft : (BitVec.ofNat 7 (s.fresh.toNat - n)).toNat = s.fresh.toNat - n :=
      Nat.mod_eq_of_lt (Nat.lt_of_le_of_lt (Nat.sub_le _ _) s.fresh.isLt)
    refine ⟨and_mask_eq_iff.2 fun k hk => hlow k (by omega), ⟨hvalid, hcursor, rfl, and_mask_eq_iff.2 fun k hk => ?_⟩,
      fun hb => by simp [hb], [], by simp, by simp⟩
    simp only [State.setBits_fresh, hleft] at hk
    simp only [State.setBits_buffer, shiftRight_getLsbD]
    exact hlow (n + k) (by omega)

theorem takeMany_alike (ns : List Nat) (h : SameFreshBits s s') :
    (takeMany P ns s').1 = (takeMany P ns s).1 ∧ Alike s s' (takeMany P ns s).2 (takeMany P ns s').2 := by
  induction ns generalizing s s' with
  | nil => exact ⟨rfl, .refl h⟩
  | cons n ns ih =>
    obtain ⟨hfield, hstep⟩ := take_alike (P := P) n h
    obtain ⟨hfields, hrest⟩ := ih hstep.bits
    exact ⟨by rw [takeMany, takeMany, hfield, hfields], hstep.trans hrest⟩

/-- A command in two states it cannot tell apart: the same events, and two states it cannot tell apart. -/
theorem execWith_alike (P : Params) (i : Instr) (h : SameFreshBits s s') :
    ∃ t t', execWith P i s = .next t ∧ execWith P i s' = .next t' ∧ Alike s s' t t' := by
  have ⟨hvalid, _⟩ := h
  by_cases hok : expectedStatus P i s.valid = .ok
  · have hw := wellFormed_of_expectedStatus_ok hok
    cases hgen : isGenerator i with
    | true =>
      have hv := valid_of_generator_ok hok hgen
      obtain ⟨hfields, htakes⟩ := takeMany_alike (P := P) (takeWidths i) h
      refine ⟨_, _, execWith_generator hgen hv hw, execWith_generator hgen (hvalid.trans hv) hw, ?_⟩
      rw [hfields]
      exact htakes.emit _
    | false =>
      cases hst : isStateCommand i with
      | true => exact ⟨_, _, execWith_stateCommand hst hw, execWith_stateCommand hst hw, ((Alike.refl h).load _ _ _).emit _⟩
      | false =>
        exact ⟨_, _, execWith_stateless (streamBit P s) hgen hst, execWith_stateless (streamBit P s) hgen hst,
          (Alike.refl h).emit _⟩
  · refine ⟨_, _, execWith_failed hok, execWith_failed (hvalid.symm ▸ hok), ?_⟩
    rw [hvalid]
    exact (Alike.refl h).emit _

theorem runCommands_alike (P : Params) (is : List Instr) (h : SameFreshBits s s') :
    ∃ t t', runCommands (execWith P) is s = .next t ∧ runCommands (execWith P) is s' = .next t' ∧ Alike s s' t t' := by
  induction is generalizing s s' with
  | nil => exact ⟨s, s', rfl, rfl, .refl h⟩
  | cons i is ih =>
    obtain ⟨u, u', hu, hu', hstep⟩ := execWith_alike P i h
    obtain ⟨t, t', ht, ht', hrest⟩ := ih hstep.bits
    exact ⟨t, t', by rw [runCommands, hu]; exact ht, by rw [runCommands, hu']; exact ht', hstep.trans hrest⟩

end Sys2Proof.Proofs

namespace Sys2Proof.Proofs

open Sys2Proof.Machine Sys2Proof.Safety Sys2Proof.Laws

/-- Settles O30: one command in two states it cannot tell apart (`execWith_alike`); the only reader of BUFFER is `Take`. -/
theorem staleBitsAreUnobservable : Obligations.StaleBitsAreUnobservable := by
  intro P i s s' h
  obtain ⟨t, t', ht, ht', hbits, -, es, htrace, htrace'⟩ := execWith_alike P i h
  exact ⟨t, t', es, ht, ht', htrace, htrace', hbits⟩

/-- Settles O50: LDSTATE of the saved elements gives a state with equal elements, and any list of commands then runs alike
(`runCommands_alike`). -/
theorem savedStateContinuesAlike : Obligations.SavedStateContinuesAlike := by
  intro s u hv hs
  have hsaved : (readElement .fresh s).toNat = s.fresh.toNat := by
    simp only [readElement, BitVec.toNat_setWidth]
    omega
  have hle : (readElement .fresh s).toNat ≤ 64 := hsaved.trans_le hs
  have hfresh : (readElement .fresh s).extractLsb' 0 7 = s.fresh :=
    BitVec.eq_of_toNat_eq ((freshOperand_toNat hle).trans hsaved)
  have hexec := loadState_of_le (s := u) (c := readElement .cursor s) (b := readElement .buffer s) hle
  rw [hfresh, respondNone_eq] at hexec
  have hsame : SameElements s ((u.load s.cursor s.buffer s.fresh).emit (.response ⟨.ok, 0, []⟩)) := ⟨hv.symm, rfl, rfl, rfl⟩
  refine ⟨_, hexec, hsame, fun is => ?_⟩
  have hhardware : execWith hardware = exec := funext fun i => funext (execWith_hardware i)
  obtain ⟨t, t', ht, ht', halike⟩ := runCommands_alike hardware is (sameFreshBits_of_sameElements hsame)
  rw [hhardware] at ht ht'
  obtain ⟨es, htrace, htrace'⟩ := halike.events
  exact ⟨t, t', es, ht, ht', htrace, htrace', halike.sameElements rfl⟩

end Sys2Proof.Proofs
end

section
/-! A run of generator commands is a run of takes (spec/10_state.md R29; spec/70_reset_and_hazards.md R156). -/

namespace Sys2Proof.Proofs

open Sys2Proof.Machine Sys2Proof.Safety Sys2Proof.Laws

variable {P : Params} {s t u : State}

/-- The `Take` calls of a list of generator commands: those of the commands with legal operands, in order. -/
def takesOf (P : Params) (is : List Instr) : List Nat := (is.filter (fun i => i.wellFormed P)).flatMap takeWidths

theorem takesOf_le {is : List Instr} : ∀ n ∈ takesOf P is, n ≤ 64 := by
  intro n hn
  obtain ⟨i, hi, hn⟩ := List.mem_flatMap.1 hn
  exact takeWidths_le_of_wellFormed (List.mem_filter.1 hi).2 n hn

/-- Two states with equal elements and equal word-source transactions on record: they differ at most in the responses given and in
what the host has still to present. -/
structure SameDraws (s t : State) : Prop where
  elements : SameElements s t
  draws : t.trace.filter isDraw = s.trace.filter isDraw

theorem SameDraws.refl (s : State) : SameDraws s s := ⟨⟨rfl, rfl, rfl, rfl⟩, rfl⟩

theorem SameDraws.trans (h : SameDraws s t) (h' : SameDraws t u) : SameDraws s u := by
  obtain ⟨hvalid, hcursor, hbuffer, hfresh⟩ := h.elements
  obtain ⟨hvalid', hcursor', hbuffer', hfresh'⟩ := h'.elements
  exact ⟨⟨hvalid'.trans hvalid, hcursor'.trans hcursor, hbuffer'.trans hbuffer, hfresh'.trans hfresh⟩, h'.draws.trans h.draws⟩

theorem SameDraws.emit_response (h : SameDraws s t) (r : Response) : SameDraws s (t.emit (.response r)) :=
  ⟨h.elements, by simp [h.draws, isDraw]⟩

theorem SameDraws.takeMany (h : SameDraws s t) (ns : List Nat) :
    SameDraws (takeMany P ns s).2 (takeMany P ns t).2 := by
  obtain ⟨-, halike⟩ := takeMany_alike (P := P) ns (sameFreshBits_of_sameElements h.elements)
  obtain ⟨es, hs, ht⟩ := halike.events
  obtain ⟨-, -, hbuffer, -⟩ := h.elements
  exact ⟨halike.sameElements hbuffer, by simp [hs, ht, h.draws]⟩

theorem SameDraws.streamBit_eq (h : SameDraws s t) (k : Nat) : streamBit P t k = streamBit P s k := by
  obtain ⟨-, hcursor, hbuffer, hfresh⟩ := h.elements
  rw [streamBit, streamBit, hcursor, hbuffer, hfresh]

/-- One generator command while VALID = 1 does what its own takes do, and a failing one nothing. -/
theorem generator_sameDraws {i : Instr} (hgen : isGenerator i = true) (hv : s.valid = true) :
    ∃ t, execWith P i s = .next t ∧ SameDraws (takeMany P (takesOf P [i]) s).2 t := by
  cases hw : i.wellFormed P with
  | true =>
    have htakes : takesOf P [i] = takeWidths i := by simp [takesOf, hw]
    rw [htakes]
    exact ⟨_, execWith_generator hgen hv hw, (SameDraws.refl _).emit_response _⟩
  | false =>
    have htakes : takesOf P [i] = [] := by simp [takesOf, hw]
    have hfail : expectedStatus P i s.valid ≠ .ok := fun hok => by simp [wellFormed_of_expectedStatus_ok hok] at hw
    rw [htakes]
    exact ⟨_, execWith_failed hfail, (SameDraws.refl s).emit_response _⟩

/-- A run of generator commands while VALID = 1 does what the commands' own takes do, one after the other. -/
theorem runCommands_generators {is : List Instr} (hgen : ∀ i ∈ is, isGenerator i = true) (hv : s.valid = true) :
    ∃ t, runCommands (execWith P) is s = .next t ∧ SameDraws (takeMany P (takesOf P is) s).2 t := by
  induction is generalizing s with
  | nil => exact ⟨s, rfl, .refl s⟩
  | cons i is ih =>
    obtain ⟨hi, his⟩ := List.forall_mem_cons.1 hgen
    obtain ⟨u, hu, hfirst⟩ := generator_sameDraws (P := P) hi hv
    obtain ⟨hvalid, -⟩ := hfirst.elements
    have hvu : u.valid = true := by rw [hvalid, takeMany_valid, hv]
    obtain ⟨t, ht, hrest⟩ := ih his hvu
    have hsplit : takesOf P (i :: is) = takesOf P [i] ++ takesOf P is := by
      rw [takesOf, ← List.singleton_append, List.filter_append, List.flatMap_append]
      rfl
    have hboth := hfirst.takeMany (P := P) (takesOf P is)
    refine ⟨t, by rw [runCommands, hu]; exact ht, ?_⟩
    rw [hsplit, takeMany_append]
    exact hboth.trans hrest

end Sys2Proof.Proofs

namespace Sys2Proof.Proofs

open Sys2Proof.Machine Sys2Proof.Safety Sys2Proof.Laws

/-- Settles O28: the run does what its takes do (`runCommands_generators`, by induction on the list), and a run of takes follows the
stream. -/
theorem streamInvariantOverCommands : Obligations.StreamInvariantOverCommands := by
  intro P is s hv hs hgen
  obtain ⟨t, hrun, hsame⟩ := runCommands_generators (P := P) hgen hv
  refine ⟨t, takesOf P is, hrun, rfl, hsame.elements, takeMany_fieldBits takesOf_le hs, ?_, fun k => ?_⟩
  · rw [hsame.draws, takeMany_trace takesOf_le hs, List.filter_append,
      List.filter_eq_self.2 (List.all_eq_true.1 (drawEvents_all_isDraw _ _ _))]
  · rw [hsame.streamBit_eq, takeMany_streamBit takesOf_le hs]

end Sys2Proof.Proofs
end

section
/-! What a step can do, said once, and the invariants and frames that follow (spec/10_state.md R25, R26, R28;
spec/70_reset_and_hazards.md R150, R157). -/

namespace Sys2Proof.Proofs

open Sys2Proof.Machine Sys2Proof.Safety Sys2Proof.Laws

/-- What a step with a next state leaves, one constructor for each act of the host. -/
inductive StepOutcome (s : State) : State → Prop where
  | idle (hp : s.pending = []) : StepOutcome s s
  | command {c : Command} {rest : List HostAct} {i : Instr} {t : State} (hp : s.pending = .command c :: rest)
      (hdecode : decode c = .ok i) (houtcome : CommandOutcome hardware i { s with pending := rest } t) : StepOutcome s t
  | illegal {c : Command} {rest : List HostAct} (hp : s.pending = .command c :: rest) :
      StepOutcome s ({ s with pending := rest }.emit (.response ⟨.illegalCommand, 0, []⟩))
  | read {n : Fin 4} {rest : List HostAct} (e : Element) (v : Word) (hp : s.pending = .stateRead n :: rest) :
      StepOutcome s ({ s with pending := rest }.emit (.stateValue e v))
  | reset {rest : List HostAct} (hp : s.pending = .reset :: rest) :
      StepOutcome s { State.reset with pending := rest, trace := s.trace }

theorem outcome_of_step {s t : State} (h : step s = .next t) : StepOutcome s t := by
  rw [step] at h
  cases hp : s.pending with
  | nil =>
    rw [stepUsing_nil hp] at h
    cases h
    exact .idle hp
  | cons act rest =>
    rw [stepUsing_cons hp] at h
    cases act with
    | command c =>
      rw [performAct] at h
      cases hdecode : decode c with
      | ok i =>
        rw [performCommand_ok hdecode] at h
        exact .command hp hdecode (outcome_of_exec h)
      | error e =>
        rw [performCommand_error hdecode] at h
        cases h
        exact .illegal hp
    | stateRead n =>
      rw [performAct] at h
      obtain hread | ⟨-, -, hfault⟩ := readPort_cases n { s with pending := rest }
      · rw [hread] at h
        cases h
        exact .read _ _ hp
      · rw [hfault] at h
        cases h
    | reset =>
      cases h
      exact .reset hp

/-- INIT with a FRESH operand above 64 is rejected, whatever the seed (40_state_commands.md R70). -/
theorem exec_init_of_gt {a b f : Word} (s : State) (hf : 64 < f.toNat) :
    exec (.init a b f) s = raiseError .outOfRange s := by
  show initWith hardware a b f s = _
  rw [initWith, loadState_of_gt hf, ite_self]

/-- Settles O32: by the outcome of the step; a command keeps the range (`CommandOutcome.freshInRange`), and reset leaves the 0 of
the model's reset state. -/
theorem stepKeepsFreshInRange : Obligations.StepKeepsFreshInRange := by
  refine ⟨fun s t hs h => ?_, fun a b f s hf => ⟨exec_init_of_gt s hf, loadState_of_gt hf⟩⟩
  cases outcome_of_step h with
  | idle _ => exact hs
  | command _ _ houtcome => exact houtcome.freshInRange hs
  | illegal _ => exact hs
  | read _ _ _ => exact hs
  | reset _ => exact Nat.zero_le 64

/-- Settles O55: by the outcome of the step; of the commands only an accepted INIT or LDSTATE writes VALID. -/
theorem validChangesOnlyByResetAndStateCommands : Obligations.ValidChangesOnlyByResetAndStateCommands := by
  intro s t h
  cases outcome_of_step h with
  | idle _ | illegal _ | read _ _ _ => exact ⟨fun hs ht => by simp [hs] at ht, fun hs ht => by simp [hs] at ht⟩
  | reset hp => exact ⟨fun _ _ => ⟨_, hp⟩, fun _ ht => by cases ht⟩
  | @command c rest i _ hp hdecode houtcome =>
    have hvalid := houtcome.valid
    refine ⟨fun hs ht => by simp [validAfter, hs, ht] at hvalid, fun hs ht => ?_⟩
    obtain ⟨hst, hok⟩ : isStateCommand i = true ∧ expectedStatus hardware i false = .ok := by
      simpa [validAfter, hs, ht] using hvalid.symm
    have hw := wellFormed_of_expectedStatus_ok hok
    cases i with
    | init a b f =>
      obtain ⟨hseed, hf⟩ := wellFormed_init_iff.1 hw
      exact ⟨c, rest, a, b, f, hp, hf, .inl ⟨hdecode, (hardware_seedValid_iff a).1 hseed⟩⟩
    | ldstate a b f => exact ⟨c, rest, a, b, f, hp, of_decide_eq_true hw, .inr hdecode⟩
    | _ => cases hst

/-- Settles O54: each clause is what the command's outcome keeps. -/
theorem commandFrame : Obligations.CommandFrame := by
  intro i s t h
  have houtcome := outcome_of_exec h
  refine ⟨houtcome.pending, ⟨?_, ?_, ?_⟩, fun hgen => ?_, fun hgen hinvalid => ?_, ?_⟩
  · rintro x y rfl
    exact houtcome.sameElements (.inl ⟨rfl, rfl⟩)
  · rintro u rfl
    exact houtcome.sameElements (.inl ⟨rfl, rfl⟩)
  · rintro u rfl
    exact houtcome.sameElements (.inl ⟨rfl, rfl⟩)
  · have hst : isStateCommand i = false := by
      by_contra hst
      simp [isGenerator_of_isStateCommand (Bool.eq_true_of_not_eq_false hst)] at hgen
    simp [houtcome.valid, validAfter, hst]
  · refine houtcome.sameElements (.inr fun hok => ?_)
    simp [valid_of_generator_ok hok hgen] at hinvalid
  · rintro a b c (rfl | rfl)
    · exact houtcome.elements_of_stateCommand rfl
    · exact houtcome.elements_of_stateCommand rfl

/-- A right shift by `n` leaves the top `n` bits zero (00_scope.md R8). -/
theorem shiftRight_getLsbD_of_ge (x : Word) {n k : Nat} (h : 64 - n ≤ k) : (shiftRight x n).getLsbD k = false := by
  rw [shiftRight_getLsbD, BitVec.getLsbD_of_ge]
  omega

/-- Settles O31: INIT and LDSTATE write operand B, and after NEXTN BUFFER is a right shift, of the old BUFFER or of the word
drawn (`take_of_le`, `take_of_lt`). -/
theorem bufferAboveFresh : Obligations.BufferAboveFresh := by
  refine ⟨fun c b f s hf => ⟨_, loadState_of_le hf, rfl⟩, fun c b f s hc hf => ?_, fun n s hv hpos hle => ?_⟩
  · have hw : (Instr.init c b f).wellFormed hardware = true := wellFormed_init_iff.2 ⟨(hardware_seedValid_iff c).2 hc, hf⟩
    exact ⟨_, (execWith_hardware _ s).symm.trans (execWith_stateCommand rfl hw), rfl⟩
  · have hw : (Instr.nextn n).wellFormed hardware = true := by simp [Instr.wellFormed, hpos, hle]
    refine ⟨_, (execWith_hardware _ s).symm.trans (execWith_generator rfl hv hw), fun hn k hk => ?_, fun hn k hk => ?_⟩
    · simp only [takeWidths, takeMany, take_of_le hn, State.emit_buffer, State.setBits_buffer]
      exact shiftRight_getLsbD_of_ge _ hk
    · simp only [takeWidths, takeMany, take_of_lt hn, State.emit_buffer, State.setBits_buffer]
      exact shiftRight_getLsbD_of_ge _ hk

end Sys2Proof.Proofs
end

section
/-! The state-read port and the reset state (spec/10_state.md R27, R33). -/

namespace Sys2Proof.Proofs

open Sys2Proof.Machine Sys2Proof.Safety Sys2Proof.Laws

variable {s : State} {n : Fin 4} {rest : List HostAct}

/-- A read of an element that holds a value is answered. -/
theorem step_stateRead_answers (hp : s.pending = .stateRead n :: rest) (hread : s.valid = true ∨ elementOfNumber n = .valid) :
    step s = .next ({ s with pending := rest }.emit (.stateValue (elementOfNumber n) (readElement (elementOfNumber n) s))) := by
  rw [step, stepUsing_cons hp]
  exact if_pos hread

/-- A read of an element that holds no value faults. -/
theorem step_stateRead_faults (hp : s.pending = .stateRead n :: rest) (hinvalid : s.valid = false)
    (hne : elementOfNumber n ≠ .valid) : step s = .fault (.readWhileInvalid (elementOfNumber n)) := by
  rw [step, stepUsing_cons hp]
  exact if_neg (by simp [hinvalid, hne])

theorem readElement_valid (s : State) : readElement .valid s = if s.valid then 1 else 0 := rfl

theorem readElement_fresh (s : State) : readElement .fresh s = BitVec.ofNat 64 s.fresh.toNat := (BitVec.ofNat_toNat ..).symm

end Sys2Proof.Proofs

namespace Sys2Proof.Proofs

open Sys2Proof.Machine Sys2Proof.Safety Sys2Proof.Laws

/-- Settles O14: a read is answered where the element holds a value, and faults elsewhere. -/
theorem stateReadAnswersElement : Obligations.StateReadAnswersElement := by
  intro s n rest hp
  refine ⟨fun hv => ?_, fun hinvalid => ⟨?_, ?_, ?_, ?_⟩⟩
  · have hanswer := step_stateRead_answers hp (.inl hv)
    refine ⟨?_, ?_, ?_, ?_⟩ <;> rintro rfl
    · rw [hanswer, elementOfNumber, readElement_valid, hv]
      rfl
    · exact hanswer
    · exact hanswer
    · rw [hanswer, elementOfNumber, readElement_fresh]
      rfl
  · rintro rfl
    rw [step_stateRead_answers hp (.inr rfl), elementOfNumber, readElement_valid, hinvalid]
    rfl
  all_goals
    rintro rfl
    exact step_stateRead_faults hp hinvalid (by decide)

/-- Settles O16: VALID is 0 in the reset state, so the four reads are those of O14 there. -/
theorem resetStateIsUninitialised : Obligations.ResetStateIsUninitialised := by
  have hread (n : Fin 4) := (stateReadAnswersElement { State.reset with pending := [.stateRead n] } n [] rfl).2 rfl
  obtain ⟨hvalid, -⟩ := hread 0
  obtain ⟨-, hcursor, -⟩ := hread 1
  obtain ⟨-, -, hbuffer, -⟩ := hread 2
  obtain ⟨-, -, -, hfresh⟩ := hread 3
  exact ⟨rfl, hvalid rfl, hcursor rfl, hbuffer rfl, hfresh rfl⟩

/-- Settles O33: the model's reset state has FRESH = 0 (log entry 3). -/
theorem resetFreshInRange : Obligations.ResetFreshInRange := by
  show State.reset.fresh.toNat ≤ 64
  rw [State.reset_fresh]
  decide

end Sys2Proof.Proofs
end

section
/-! One step, one act (spec/20_memory.md R45, R47; spec/70_reset_and_hazards.md R157): the command presented is what runs, and the
record of the ports only grows. -/

namespace Sys2Proof.Proofs

open Sys2Proof.Machine Sys2Proof.Safety Sys2Proof.Laws

variable {P : Params} {i : Instr} {s t : State}

/-- A run of takes only adds to the record of the ports, whatever FRESH and the widths are. -/
theorem takeMany_trace_grows (ns : List Nat) : ∃ es, (takeMany P ns s).2.trace = s.trace ++ es := by
  obtain ⟨-, halike⟩ := takeMany_alike (P := P) (s := s) ns (sameFreshBits_of_sameElements ⟨rfl, rfl, rfl, rfl⟩)
  obtain ⟨es, htrace, -⟩ := halike.events
  exact ⟨es, htrace⟩

theorem CommandOutcome.trace_grows (h : CommandOutcome P i s t) : ∃ es, t.trace = s.trace ++ es := by
  cases h with
  | failed _ | stateless _ _ _ | loaded _ _ => exact ⟨_, rfl⟩
  | generated _ _ =>
    obtain ⟨es, htrace⟩ := takeMany_trace_grows (P := P) (s := s) (takeWidths i)
    exact ⟨es ++ [_], by rw [State.emit_trace, htrace, List.append_assoc]⟩

end Sys2Proof.Proofs

namespace Sys2Proof.Proofs

open Sys2Proof.Machine Sys2Proof.Safety Sys2Proof.Laws

/-- Settles O10: the act is taken off the script, and it decodes, so the instruction is run. -/
theorem stepRunsDecodedCommand : Obligations.StepRunsDecodedCommand := by
  intro s rest c i hp hdecode
  rw [step, stepUsing_cons hp]
  exact performCommand_ok hdecode

/-- Settles O12: by the outcome of the step; a command keeps the script it is given and only adds to the record
(`CommandOutcome.trace_grows`). -/
theorem stepPerformsOneAct : Obligations.StepPerformsOneAct := by
  intro s t h
  cases outcome_of_step h with
  | idle hp => exact ⟨by rw [hp, List.tail_nil], [], (List.append_nil _).symm⟩
  | command hp _ houtcome => exact ⟨by rw [houtcome.pending, hp, List.tail_cons], houtcome.trace_grows⟩
  | illegal hp | read _ _ hp => exact ⟨by rw [State.emit_pending, hp, List.tail_cons], _, rfl⟩
  | reset hp => exact ⟨by rw [hp, List.tail_cons], [], (List.append_nil _).symm⟩

end Sys2Proof.Proofs
end

section
/-! The number of draws of each command (spec/20_memory.md R42): an accepted generator draws the words its bits need, and R42's table
counts just those. -/

namespace Sys2Proof.Proofs

open Sys2Proof.Machine Sys2Proof.Safety Sys2Proof.Laws

variable {P : Params} {i : Instr} {s t : State} {f : Nat}

/-- One take draws one word or none (42_bitfield.md R90). -/
theorem drawsNeeded_eq_ite {n : Nat} (hn : n ≤ 64) : drawsNeeded f n = if f < n then 1 else 0 := by
  split
  · exact drawsNeeded_of_lt ‹_› hn
  · exact drawsNeeded_of_le (by omega)

/-- FRESH after `k` bytes is FRESH after one take of their `8 * k` bits. -/
theorem freshAfterBytes_eq (hf : f ≤ 64) (k : Nat) :
    freshAfterBytes f k = f + 64 * drawsNeeded f (8 * k) - 8 * k := by
  induction k with
  | zero => simp [freshAfterBytes, drawsNeeded_of_le]
  | succ k ih =>
    rw [freshAfterBytes, Nat.mul_succ, drawsNeeded_add _ _ hf, ← ih, drawsNeeded_eq_ite (n := 8) (by decide)]
    have hle : 8 * k ≤ f + 64 * drawsNeeded f (8 * k) := by unfold drawsNeeded; omega
    split <;> omega

/-- Counting the bytes at which fewer than eight bits are fresh counts the draws of all the bytes' bits. -/
theorem length_filter_freshAfterBytes (hf : f ≤ 64) (count : Nat) :
    ((List.range count).filter (fun k => freshAfterBytes f k < 8)).length = drawsNeeded f (8 * count) := by
  induction count with
  | zero => simp [drawsNeeded_of_le]
  | succ count ih =>
    rw [List.range_succ, List.filter_append, List.length_append, ih, Nat.mul_succ, drawsNeeded_add _ _ hf,
      ← freshAfterBytes_eq hf, drawsNeeded_eq_ite (n := 8) (by decide)]
    by_cases hlow : freshAfterBytes f count < 8 <;> simp [hlow]

/-- R42 for an accepted generator: the words its bits need. -/
theorem drawsMade_of_generator (hok : expectedStatus P i s.valid = .ok) (hgen : isGenerator i = true) (hs : FreshInRange s) :
    drawsMade P i s = drawsNeeded s.fresh.toNat (bitsTaken i) := by
  have hwidths := takeWidths_le_of_wellFormed (wellFormed_of_expectedStatus_ok hok)
  cases i with
  | nextn n => exact (if_pos hok).trans (drawsNeeded_eq_ite (hwidths _ (List.mem_singleton_self _))).symm
  | nextu64 | nextu64b _ | nextu64r _ _ | nexti64 | nextf64 => exact (if_pos hok).trans (drawsNeeded_eq_ite le_rfl).symm
  | nextbytes count =>
    rw [bitsTaken, takeWidths, List.sum_replicate, smul_eq_mul, Nat.mul_comm]
    exact (if_pos hok).trans (length_filter_freshAfterBytes hs _)
  | _ => cases hgen

/-- R42 for every other command: none. -/
theorem drawsMade_of_quiet (hquiet : isGenerator i = false ∨ expectedStatus P i s.valid ≠ .ok) : drawsMade P i s = 0 := by
  by_cases hok : expectedStatus P i s.valid = .ok
  · have hgen : isGenerator i = false := hquiet.resolve_right (not_not_intro hok)
    cases i with
    | mulhi _ _ | asi64 _ | asu64 _ | init _ _ _ | ldstate _ _ _ => exact if_pos hok
    | _ => cases hgen
  · exact if_neg hok

theorem countP_isDraw_drawEvents (P : Params) (c : Word) (k : Nat) : (drawEvents P c k).countP isDraw = k := by
  rw [List.countP_eq_length.2 (List.all_eq_true.1 (drawEvents_all_isDraw P c k)), drawEvents_length]

theorem countP_isDraw_response (r : Response) : [PortEvent.response r].countP isDraw = 0 := rfl

/-- Every command makes the draws of R42's table, and its one response is none. -/
theorem CommandOutcome.countP_isDraw (h : CommandOutcome P i s t) (hs : FreshInRange s) :
    t.trace.countP isDraw = s.trace.countP isDraw + drawsMade P i s := by
  by_cases hdraws : isGenerator i = true ∧ expectedStatus P i s.valid = .ok
  · obtain ⟨hgen, hok⟩ := hdraws
    obtain ⟨-, -, -, htrace, -⟩ := h.consumed hs hgen hok
    rw [htrace, List.countP_append, List.countP_append, countP_isDraw_drawEvents, countP_isDraw_response,
      drawsMade_of_generator hok hgen hs, Nat.add_zero]
  · have hquiet : isGenerator i = false ∨ expectedStatus P i s.valid ≠ .ok := by
      rwa [not_and_or, Bool.not_eq_true] at hdraws
    rw [h.trace_of_no_draw hquiet, List.countP_append, countP_isDraw_response, drawsMade_of_quiet hquiet]

end Sys2Proof.Proofs

namespace Sys2Proof.Proofs

open Sys2Proof.Machine Sys2Proof.Safety Sys2Proof.Laws

/-- Settles O34: the command has an outcome, and each outcome draws as R42's table says (`CommandOutcome.countP_isDraw`). -/
theorem drawCountsAsTabled : Obligations.DrawCountsAsTabled := by
  intro i s hs
  obtain ⟨t, hexec, h⟩ := execWith_outcome hardware i s
  exact ⟨t, (execWith_hardware i s).symm.trans hexec, h.countP_isDraw hs⟩

end Sys2Proof.Proofs
end

section
/-! The byte order of NEXTBYTES (spec/20_memory.md R43): with nothing fresh the stream is the next raw word, bit 0 first. -/

namespace Sys2Proof.Proofs

open Sys2Proof.Machine Sys2Proof.Safety Sys2Proof.Laws

variable {P : Params} {s : State}

/-- With FRESH = 0 the first 64 stream bits are those of the next raw word. -/
theorem streamBit_of_fresh_zero (hf : s.fresh = 0) {k : Nat} (hk : k < 64) :
    streamBit P s k = (P.next s.cursor).1.getLsbD k := by
  simp [streamBit, streamFrom, hf, rawWord, cursorAfter, Nat.div_eq_of_lt hk, Nat.mod_eq_of_lt hk]

/-- With FRESH = 0, stream byte `k` is byte `k` of the next raw word, counted from its low end. -/
theorem streamByte_of_fresh_zero (hf : s.fresh = 0) {k : Nat} (hk : k < 8) :
    BitVec.ofNat 8 (streamNat (streamDrop (streamBit P s) (8 * k)) 8) = (P.next s.cursor).1.extractLsb' (8 * k) 8 := by
  refine BitVec.eq_of_getLsbD_eq fun j hj => ?_
  rw [BitVec.getLsbD_ofNat, streamNat_testBit, BitVec.getLsbD_extractLsb', streamDrop, streamBit_of_fresh_zero hf (by omega),
    decide_eq_true hj, Bool.true_and]

end Sys2Proof.Proofs

namespace Sys2Proof.Proofs

open Sys2Proof.Machine Sys2Proof.Safety Sys2Proof.Laws

/-- Settles O45: NEXTBYTES 8 takes 64 bits, which need one draw, and its bytes are the stream's (`CommandOutcome.consumed`), which
are the raw word's (`streamByte_of_fresh_zero`). -/
theorem eightBytesOfAWordAreLittleEndian : Obligations.EightBytesOfAWordAreLittleEndian := by
  intro s hv hf
  obtain ⟨t, hexec, h⟩ := execWith_outcome hardware (.nextbytes 8) s
  refine ⟨t, (execWith_hardware _ s).symm.trans hexec, ?_⟩
  have hrange : FreshInRange s := by simp [FreshInRange, hf]
  have hok : expectedStatus hardware (.nextbytes 8) s.valid = .ok := (expectedStatus_ok_iff_of_valid hv).2 rfl
  have hdraws : drawsNeeded s.fresh.toNat (bitsTaken (.nextbytes 8)) = 1 := by rw [hf]; rfl
  have hbytes : acceptedResponse hardware (.nextbytes 8) (streamBit hardware s) =
      ⟨.ok, 0, (List.range 8).map (fun k => (Config.wsNext s.cursor).1.extractLsb' (8 * k) 8)⟩ :=
    congrArg bytesResponse (List.map_congr_left fun k hk => streamByte_of_fresh_zero hf (List.mem_range.1 hk))
  obtain ⟨-, -, -, htrace, -⟩ := h.consumed hrange rfl hok
  rw [htrace, expectedResponse_of_ok hok, hbytes, hdraws, List.append_assoc]
  rfl

end Sys2Proof.Proofs
end

section
/-! The decoder in one equation (spec/30_encoding.md R50 to R58, R60): a command decodes to `i` exactly when its header is the one `i` is
encoded with and the words `i` reads hold `i`'s operands. -/

namespace Sys2Proof.Proofs

open Sys2Proof.Machine Sys2Proof.Safety Sys2Proof.Laws

/-- The instruction of `i`'s mnemonic whose operands stand in the words `a`, `b` and `c` (30_encoding.md R53). -/
def withOperands (a b c : Word) : Instr → Instr
  | .mulhi _ _ => .mulhi a b
  | .asi64 _ => .asi64 a
  | .asu64 _ => .asu64 a
  | .nextn _ => .nextn a
  | .nextu64 => .nextu64
  | .nextu64b _ => .nextu64b a
  | .nextu64r _ _ => .nextu64r a b
  | .nexti64 => .nexti64
  | .nextf64 => .nextf64
  | .nextbytes _ => .nextbytes a
  | .init _ _ _ => .init a b c
  | .ldstate _ _ _ => .ldstate a b c

variable {c c' : Command} {i : Instr}

@[simp] theorem opcode_withOperands (x y z : Word) (i : Instr) : opcode (withOperands x y z i) = opcode i := by
  cases i <;> rfl

/-- `operandWords` puts each operand where `withOperands` looks for it. -/
@[simp] theorem withOperands_operandWords (i : Instr) :
    withOperands (operandWords i).1 (operandWords i).2.1 (operandWords i).2.2 i = i := by
  cases i <;> rfl

@[simp] theorem clearUnread_h (c : Command) (i : Instr) : (clearUnread c i).h = c.h := by
  cases i <;> exact commandOf_h _ _ _ _

/-- The words set to zero are none that the instruction takes its operands from. -/
@[simp] theorem withOperands_clearUnread (c : Command) (i : Instr) :
    withOperands (clearUnread c i).a (clearUnread c i).b (clearUnread c i).c i = withOperands c.a c.b c.c i := by
  cases i <;> simp [withOperands, clearUnread]

/-- Encoding writes the header, the words the instruction reads, and zero elsewhere (30_encoding.md R60). -/
theorem encode_withOperands (hh : c.h = (opcode i).setWidth 64) : encode (withOperands c.a c.b c.c i) = clearUnread c i := by
  rw [encode, opcode_withOperands, ← hh]
  cases i <;> rfl

/-- A header is OPC and RSVD (30_encoding.md R51), so RSVD zero leaves OPC alone. -/
theorem header_eq_setWidth_iff {h : Word} {o : BitVec 8} :
    h = o.setWidth 64 ↔ headerRsvd h = 0 ∧ headerOpc h = o := by
  constructor
  · rintro rfl
    exact ⟨headerRsvd_setWidth o, headerOpc_setWidth o⟩
  · rintro ⟨hrsvd, rfl⟩
    have hhigh := congrArg BitVec.toNat hrsvd
    have hlt := h.isLt
    apply BitVec.eq_of_toNat_eq
    simp [headerRsvd, headerOpc, BitVec.extractLsb'_toNat, Nat.shiftRight_eq_div_pow] at hhigh ⊢
    omega

/-- R58 for a header that decodes: OPC picks the command, and A, B and C become its operands. -/
theorem decode_of_header (hh : c.h = (opcode i).setWidth 64) : decode c = .ok (withOperands c.a c.b c.c i) := by
  obtain ⟨hrsvd, hopc⟩ := header_eq_setWidth_iff.1 hh
  rw [decode, if_neg (not_not_intro hrsvd), hopc]
  cases i <;> rfl

/-- Every listed OPC is some command's (30_encoding.md R52). -/
theorem exists_opcode_eq {o : BitVec 8} (ho : o ∈ listedOpcodes) : ∃ i, opcode i = o := by
  simp only [listedOpcodes, List.mem_cons, List.not_mem_nil, or_false] at ho
  obtain rfl | rfl | rfl | rfl | rfl | rfl | rfl | rfl | rfl | rfl | rfl | rfl := ho
  exacts [⟨.mulhi 0 0, rfl⟩, ⟨.asi64 0, rfl⟩, ⟨.asu64 0, rfl⟩, ⟨.nextn 0, rfl⟩, ⟨.nextu64, rfl⟩, ⟨.nextu64b 0, rfl⟩,
    ⟨.nextu64r 0 0, rfl⟩, ⟨.nexti64, rfl⟩, ⟨.nextf64, rfl⟩, ⟨.nextbytes 0, rfl⟩, ⟨.init 0 0 0, rfl⟩, ⟨.ldstate 0 0 0, rfl⟩]

/-- Only the header a command is encoded with decodes to it (30_encoding.md R54, R55). -/
theorem header_of_decode (hdecode : decode c = .ok i) : c.h = (opcode i).setWidth 64 := by
  rw [header_eq_setWidth_iff]
  unfold decode at hdecode
  split at hdecode
  · cases hdecode
  · next hrsvd =>
    split at hdecode <;> cases hdecode
    all_goals exact ⟨not_not.1 hrsvd, ‹_›⟩

/-- The decoder in one equation: the header is `i`'s, and `i` is what its own mnemonic reads off the operand words. -/
theorem decode_eq_ok_iff : decode c = .ok i ↔ c.h = (opcode i).setWidth 64 ∧ withOperands c.a c.b c.c i = i := by
  constructor
  · intro hdecode
    have hh := header_of_decode hdecode
    rw [decode_of_header hh] at hdecode
    exact ⟨hh, Except.ok.inj hdecode⟩
  · rintro ⟨hh, hi⟩
    rw [decode_of_header hh, hi]

/-- A header that is illegal by R54 or R55 does not decode. -/
theorem decode_error_of_illegal (hillegal : headerRsvd c.h ≠ 0 ∨ headerOpc c.h ∉ listedOpcodes) : ∃ e, decode c = .error e := by
  cases hdecode : decode c with
  | error e => exact ⟨e, rfl⟩
  | ok i =>
    obtain ⟨hrsvd, hopc⟩ := header_eq_setWidth_iff.1 (header_of_decode hdecode)
    rw [hopc] at hillegal
    exact absurd hillegal (not_or_intro (not_not_intro hrsvd) (not_not_intro (EncodedForm.opcode_listed i)))

/-- Commands that are equal up to the words `i` does not read decode to `i` together. -/
theorem decode_of_clearUnread_eq (hdecode : decode c = .ok i)
    (heq : clearUnread c' i = clearUnread c i) : decode c' = .ok i := by
  obtain ⟨hh, hi⟩ := decode_eq_ok_iff.1 hdecode
  refine decode_eq_ok_iff.2 ⟨?_, ?_⟩
  · rw [← clearUnread_h c' i, heq, clearUnread_h, hh]
  · rw [← withOperands_clearUnread c' i, heq, withOperands_clearUnread, hi]

/-- A command that does not decode is answered ILLEGAL_COMMAND and changes no state (60_exceptions.md R131, R132). -/
theorem step_of_decode_error {s : State} {rest : List HostAct} (hp : s.pending = .command c :: rest)
    (hdecode : ∃ e, decode c = .error e) :
    step s = .next { s with pending := rest, trace := s.trace ++ [.response ⟨.illegalCommand, 0, []⟩] } := by
  obtain ⟨e, hdecode⟩ := hdecode
  rw [step, stepUsing_cons hp]
  exact performCommand_error hdecode

/-- R55's ranges are what R52 leaves of the 256 OPC values. -/
theorem not_mem_listedOpcodes_iff (o : BitVec 8) : o ∉ listedOpcodes ↔
    o.toNat = 0x00 ∨ (0x04 ≤ o.toNat ∧ o.toNat ≤ 0x0F) ∨ (0x17 ≤ o.toNat ∧ o.toNat ≤ 0x1F) ∨ 0x22 ≤ o.toNat := by
  simp only [listedOpcodes, List.mem_cons, List.not_mem_nil, or_false, ← BitVec.toNat_inj, BitVec.reduceToNat]
  have := o.isLt
  omega

/-- The OPC values listed, as the numbers below 256 they are. -/
theorem filter_mem_listedOpcodes_perm :
    ((List.range 256).filter (fun k => BitVec.ofNat 8 k ∈ listedOpcodes)).Perm (listedOpcodes.map BitVec.toNat) := by
  refine (List.perm_ext_iff_of_nodup (List.nodup_range.filter _) (by decide)).2 fun k => ?_
  simp only [List.mem_filter, List.mem_range, List.mem_map, decide_eq_true_eq]
  constructor
  · rintro ⟨hk, hmem⟩
    exact ⟨_, hmem, Nat.mod_eq_of_lt hk⟩
  · rintro ⟨o, hmem, rfl⟩
    exact ⟨o.isLt, by rwa [BitVec.ofNat_toNat, BitVec.setWidth_eq]⟩

/-- R55's count: 256 OPC values less the 12 that R52 lists. -/
theorem length_filter_not_mem_listedOpcodes :
    ((List.range 256).filter (fun k => BitVec.ofNat 8 k ∉ listedOpcodes)).length = 244 := by
  have hlisted : _ = 12 := filter_mem_listedOpcodes_perm.length_eq
  have hsplit := List.length_eq_length_filter_add (l := List.range 256) (fun k => decide (BitVec.ofNat 8 k ∈ listedOpcodes))
  simp only [hlisted, List.length_range, ← decide_not] at hsplit
  omega

end Sys2Proof.Proofs

namespace Sys2Proof.Proofs

open Sys2Proof.Machine Sys2Proof.Safety Sys2Proof.Laws

/-- Settles O3: the encoding's header is the instruction's, and so are the operand words it reads (`decode_eq_ok_iff`). -/
theorem decodeEncodeRoundTrip : Obligations.DecodeEncodeRoundTrip := by
  intro i
  exact decode_eq_ok_iff.2 ⟨encode_h i, by rw [encode_a, encode_b, encode_c, withOperands_operandWords]⟩

/-- Settles O1: each row's header is the one its command is encoded with (`decode_of_header`). -/
theorem headerTableDecodes : Obligations.HeaderTableDecodes := by
  intro a b c
  have row (i : Instr) : decode (commandOf ((opcode i).setWidth 64) a b c) = .ok (withOperands a b c i) := by
    simpa using decode_of_header (commandOf_h ((opcode i).setWidth 64) a b c)
  exact ⟨row (.mulhi 0 0), row (.asi64 0), row (.asu64 0), row (.nextn 0), row .nextu64, row (.nextu64b 0), row (.nextu64r 0 0),
    row .nexti64, row .nextf64, row (.nextbytes 0), row (.init 0 0 0), row (.ldstate 0 0 0)⟩

/-- Settles O2: a listed OPC is some command's (`exists_opcode_eq`), and which one it is does not depend on A, B and C
(`decode_of_header`). -/
theorem decoderReadsHeaderAlone : Obligations.DecoderReadsHeaderAlone := by
  refine fun c => ⟨decode_error_of_illegal, fun ⟨hrsvd, hlisted⟩ => ?_⟩
  obtain ⟨i, hopc⟩ := exists_opcode_eq hlisted
  have hh : c.h = (opcode i).setWidth 64 := header_eq_setWidth_iff.2 ⟨hrsvd, hopc.symm⟩
  refine ⟨_, decode_of_header hh, by rw [opcode_withOperands, hopc], fun c' hc' => ⟨_, decode_of_header (hc'.trans hh), ?_⟩⟩
  rw [opcode_withOperands, opcode_withOperands]

/-- Settles O4: the instruction holds the words it reads (`decode_eq_ok_iff`), and encoding it writes zero into the others
(`encode_withOperands`). -/
theorem encodeDecodeClearsUnreadWords : Obligations.EncodeDecodeClearsUnreadWords := by
  intro c i hdecode
  obtain ⟨hh, hi⟩ := decode_eq_ok_iff.1 hdecode
  rw [← encode_withOperands hh, hi]

/-- Settles O5: the two commands decode alike, and a step sees of a command what it decodes to; the second half is O4 for the
command `encode i` itself. -/
theorem unreadWordsChangeNothing : Obligations.UnreadWordsChangeNothing := by
  refine ⟨fun s rest c c' i hdecode heq => ?_, fun i => ?_⟩
  · have hstep := stepRunsDecodedCommand { s with pending := .command c :: rest } rest c i rfl hdecode
    have hdecode' := decode_of_clearUnread_eq hdecode heq
    have hstep' := stepRunsDecodedCommand { s with pending := .command c' :: rest } rest c' i rfl hdecode'
    exact hstep'.trans hstep.symm
  · exact (encodeDecodeClearsUnreadWords _ i (decodeEncodeRoundTrip i)).symm

/-- Settles O6: such a header does not decode (`decode_error_of_illegal`). -/
theorem reservedHeaderIsIllegal : Obligations.ReservedHeaderIsIllegal :=
  fun _ _ _ hp hrsvd => step_of_decode_error hp (decode_error_of_illegal (.inl hrsvd))

/-- Settles O7: such a header does not decode (`decode_error_of_illegal`), and the ranges are counted
(`length_filter_not_mem_listedOpcodes`). -/
theorem unlistedOpcodeIsIllegal : Obligations.UnlistedOpcodeIsIllegal :=
  ⟨fun _ _ _ hp hopc => step_of_decode_error hp (decode_error_of_illegal (.inr hopc)), not_mem_listedOpcodes_iff,
    length_filter_not_mem_listedOpcodes⟩

end Sys2Proof.Proofs
end

section
/-! When a line assembles (spec/30_encoding.md R59, R61): as many literals as its form has operands, each in its operand's range. -/

namespace Sys2Proof.Proofs

open Sys2Proof.Machine Sys2Proof.Safety Sys2Proof.Laws

variable {m : Mnemonic} {words : List Word} {l : List Int} {i : Instr}

/-- Only INIT with one operand or two is a pseudo-instruction (30_encoding.md R61). -/
theorem expandPseudo_of_not_pseudo (h : ¬ (m = .init ∧ (l.length = 1 ∨ l.length = 2))) : expandPseudo ⟨m, l⟩ = ⟨m, l⟩ := by
  unfold expandPseudo
  split
  · simp_all
  · simp_all
  · rfl

/-- A line with its form's number of operands is no pseudo-instruction. -/
theorem not_pseudo_of_length_eq (h : l.length = (operandKinds m).length) : ¬ (m = .init ∧ (l.length = 1 ∨ l.length = 2)) := by
  rintro ⟨rfl, hlength⟩
  have hthree : l.length = 3 := h
  omega

/-- Every form takes as many words as it has operands. -/
theorem exists_instrOf (h : words.length = (operandKinds m).length) : ∃ i, instrOf m words = some i := by
  cases m with
  | nextu64 | nexti64 | nextf64 =>
    cases List.length_eq_zero_iff.1 h
    exact ⟨_, rfl⟩
  | asi64 | asu64 | nextn | nextu64b | nextbytes =>
    obtain ⟨x, rfl⟩ := List.length_eq_one_iff.1 h
    exact ⟨_, rfl⟩
  | mulhi | nextu64r =>
    obtain ⟨x, y, rfl⟩ := List.length_eq_two.1 h
    exact ⟨_, rfl⟩
  | init | ldstate =>
    obtain ⟨x, y, z, rfl⟩ := List.length_eq_three.1 h
    exact ⟨_, rfl⟩

/-- And no form takes any other number. -/
theorem instrOf_of_length_ne (h : words.length ≠ (operandKinds m).length) : instrOf m words = none := by
  cases m with
  | nextu64 | nexti64 | nextf64 =>
    match words, h with
    | [], h => exact absurd rfl h
    | _ :: _, _ => rfl
  | asi64 | asu64 | nextn | nextu64b | nextbytes =>
    match words, h with
    | [_], h => exact absurd rfl h
    | [], _ | _ :: _ :: _, _ => rfl
  | mulhi | nextu64r =>
    match words, h with
    | [_, _], h => exact absurd rfl h
    | [], _ | [_], _ | _ :: _ :: _ :: _, _ => rfl
  | init | ldstate =>
    match words, h with
    | [_, _, _], h => exact absurd rfl h
    | [], _ | [_], _ | [_, _], _ | _ :: _ :: _ :: _ :: _, _ => rfl

theorem assembleLine_of_fits (hi : instrOf m (l.map pat) = some i) (hfits : List.Forall₂ FitsOperand (operandKinds m) l) :
    assembleLine ⟨m, l⟩ = .ok i := by
  have hlength : l.length = (operandKinds m).length := hfits.length_eq.symm
  simp only [assembleLine, expandPseudo_of_not_pseudo (not_pseudo_of_length_eq hlength), hi,
    if_pos ((literalsFit_iff hlength).2 hfits)]

theorem assembleLine_of_not_fits (hlength : l.length = (operandKinds m).length)
    (hfits : ¬ List.Forall₂ FitsOperand (operandKinds m) l) : assembleLine ⟨m, l⟩ = .error .literalOutOfRange := by
  obtain ⟨i, hi⟩ := exists_instrOf (words := l.map pat) (by rw [List.length_map, hlength])
  simp only [assembleLine, expandPseudo_of_not_pseudo (not_pseudo_of_length_eq hlength), hi,
    if_neg (mt (literalsFit_iff hlength).1 hfits)]

theorem assembleLine_of_length_ne (hlength : l.length ≠ (operandKinds m).length)
    (hpseudo : ¬ (m = .init ∧ (l.length = 1 ∨ l.length = 2))) : assembleLine ⟨m, l⟩ = .error .wrongOperandCount := by
  have hi : instrOf m (l.map pat) = none := instrOf_of_length_ne (by rwa [List.length_map])
  simp only [assembleLine, expandPseudo_of_not_pseudo hpseudo, hi]

theorem fitsOperand_unsigned_iff {v : Int} : FitsOperand .unsigned v ↔ 0 ≤ v ∧ v < 2 ^ 64 := by simp [FitsOperand]

theorem fitsOperand_signed_iff {v : Int} : FitsOperand .signed v ↔ -2 ^ 63 ≤ v ∧ v < 2 ^ 64 := by simp [FitsOperand]

theorem forall₂_fitsOperand_singleton {k : OperandKind} {v : Int} : List.Forall₂ FitsOperand [k] [v] ↔ FitsOperand k v := by
  rw [List.forall₂_cons, and_iff_left .nil]

end Sys2Proof.Proofs

namespace Sys2Proof.Proofs

open Sys2Proof.Machine Sys2Proof.Safety Sys2Proof.Laws

/-- Settles O9: the two checks of a line in turn, the number of its operands and the range of each; the forms written out have one
operand, so their list of ranges is one range. -/
theorem literalsOutOfRangeAreErrors : Obligations.LiteralsOutOfRangeAreErrors := by
  refine ⟨fun m l hlength => ⟨fun hfits => ?_, assembleLine_of_not_fits hlength⟩,
    fun m l => assembleLine_of_length_ne, fun k => ⟨fun hk => ?_, fun hk => ?_, fun hk => ?_, fun hk => ?_⟩⟩
  · obtain ⟨i, hi⟩ := exists_instrOf (words := l.map pat) (by rw [List.length_map, hlength])
    exact ⟨i, hi, assembleLine_of_fits hi hfits⟩
  · have hfits := forall₂_fitsOperand_singleton.2 (fitsOperand_unsigned_iff.2 hk)
    exact assembleLine_of_fits rfl hfits
  · have hfits := mt forall₂_fitsOperand_singleton.1 (mt fitsOperand_unsigned_iff.1 hk)
    exact assembleLine_of_not_fits rfl hfits
  · have hfits := forall₂_fitsOperand_singleton.2 (fitsOperand_signed_iff.2 hk)
    exact ⟨assembleLine_of_fits rfl hfits, assembleLine_of_fits rfl hfits⟩
  · have hfits := mt forall₂_fitsOperand_singleton.1 (mt fitsOperand_signed_iff.1 hk)
    exact ⟨assembleLine_of_not_fits rfl hfits, assembleLine_of_not_fits rfl hfits⟩

/-- INIT with three literals in range (30_encoding.md R53): a seed that may be negative (log entry 16), and two bit patterns. -/
theorem assembleLine_init {seed buf fresh : Int} (hseed : -2 ^ 63 ≤ seed ∧ seed < 2 ^ 64) (hbuf : 0 ≤ buf ∧ buf < 2 ^ 64)
    (hfresh : 0 ≤ fresh ∧ fresh < 2 ^ 64) :
    assembleLine ⟨.init, [seed, buf, fresh]⟩ = .ok (.init (pat seed) (pat buf) (pat fresh)) :=
  assembleLine_of_fits rfl (.cons (fitsOperand_signed_iff.2 hseed)
    (.cons (fitsOperand_unsigned_iff.2 hbuf) (.cons (fitsOperand_unsigned_iff.2 hfresh) .nil)))

/-- Settles O8: `expandPseudo` rewrites the two short forms to the three-operand one, which assembles by `assembleLine_init`. -/
theorem initPseudoInstructionsExpand : Obligations.InitPseudoInstructionsExpand := by
  intro seed buf
  have hfresh : (0 : Int) ≤ 64 ∧ (64 : Int) < 2 ^ 64 := by decide
  have hshort : assembleLine ⟨.init, [seed]⟩ = assembleLine ⟨.init, [seed, seed, 64]⟩ := rfl
  have hmedium : assembleLine ⟨.init, [seed, buf]⟩ = assembleLine ⟨.init, [seed, buf, 64]⟩ := rfl
  refine ⟨hshort, hmedium, fun hlow hhigh => ?_, fun hlow hhigh hblow hbhigh => ?_⟩
  · exact hshort.trans (assembleLine_init ⟨by omega, hhigh⟩ ⟨hlow, hhigh⟩ hfresh)
  · exact hmedium.trans (assembleLine_init ⟨hlow, hhigh⟩ ⟨hblow, hbhigh⟩ hfresh)

end Sys2Proof.Proofs
end

section
/-! The response of a command (spec/30_encoding.md R57): one, after draws only, of the shape its STATUS and its mnemonic allow. -/

namespace Sys2Proof.Proofs

open Sys2Proof.Machine Sys2Proof.Safety Sys2Proof.Laws

/-- R57's shape of a response to `i`: an error carries nothing, and VALUE and BYTES are there for the commands that give them
alone. -/
structure ResponseShape (i : Instr) (r : Response) : Prop where
  error : r.status ≠ .ok → r.value = 0 ∧ r.bytes = []
  value : hasValue i = false → r.value = 0
  bytes : (∀ count, i ≠ .nextbytes count) → r.bytes = []

/-- `t` is what `s` becomes when draws only, then the response `r`, pass over the ports (20_memory.md R45). -/
def Responded (s : State) (r : Response) (t : State) : Prop :=
  ∃ es, t.trace = s.trace ++ es ++ [.response r] ∧ es.all isDraw = true

variable {P : Params} {i : Instr} {s t : State}

theorem responseShape_error (st : Status) : ResponseShape i ⟨st, 0, []⟩ :=
  ⟨fun _ => ⟨rfl, rfl⟩, fun _ => rfl, fun _ => rfl⟩

theorem responseShape_fieldsResponse (P : Params) (i : Instr) (fields : List Word) :
    ResponseShape i (fieldsResponse P i fields) := by
  cases i with
  | nextbytes count => exact ⟨fun h => absurd rfl h, fun _ => rfl, fun h => absurd rfl (h count)⟩
  | mulhi _ _ | asi64 _ | asu64 _ | init _ _ _ | ldstate _ _ _ => exact responseShape_error .ok
  | _ => exact ⟨fun h => absurd rfl h, nofun, fun _ => rfl⟩

theorem responseShape_acceptedResponse (P : Params) (i : Instr) (σ : Nat → Bool) :
    ResponseShape i (acceptedResponse P i σ) := by
  cases i with
  | nextbytes count => exact ⟨fun h => absurd rfl h, fun _ => rfl, fun h => absurd rfl (h count)⟩
  | init _ _ _ | ldstate _ _ _ => exact responseShape_error .ok
  | _ => exact ⟨fun h => absurd rfl h, nofun, fun _ => rfl⟩

theorem responded_emit (s : State) (r : Response) : Responded s r (s.emit (.response r)) :=
  ⟨[], by rw [State.emit_trace, List.append_nil], rfl⟩

/-- A run of takes passes draws only over the ports, whatever FRESH and the widths are. -/
theorem takeMany_trace_draws (ns : List Nat) :
    ∃ es, (takeMany P ns s).2.trace = s.trace ++ es ∧ es.all isDraw = true := by
  induction ns generalizing s with
  | nil => exact ⟨[], (List.append_nil _).symm, rfl⟩
  | cons n ns ih =>
    obtain ⟨es, hrest, hdraws⟩ := ih (s := (take P n s).2)
    rw [takeMany, hrest]
    rcases Nat.lt_or_ge s.fresh.toNat n with hn | hn
    · rw [take_of_lt hn, State.setBits_trace, draw_trace, List.append_assoc]
      exact ⟨_, rfl, hdraws⟩
    · exact ⟨es, by simp [take_of_le hn], hdraws⟩

/-- Each outcome of a decoded command is one response of R57's shape, after draws only. -/
theorem CommandOutcome.responded (h : CommandOutcome P i s t) : ∃ r, ResponseShape i r ∧ Responded s r t := by
  cases h with
  | failed _ => exact ⟨_, responseShape_error _, responded_emit s _⟩
  | generated _ _ =>
    obtain ⟨es, htrace, hdraws⟩ := takeMany_trace_draws (P := P) (s := s) (takeWidths i)
    exact ⟨_, responseShape_fieldsResponse P i _, es, by rw [State.emit_trace, htrace], hdraws⟩
  | stateless _ _ _ => exact ⟨_, responseShape_acceptedResponse P i _, responded_emit s _⟩
  | loaded _ _ => exact ⟨_, responseShape_error .ok, responded_emit (s.load _ _ _) _⟩

end Sys2Proof.Proofs

namespace Sys2Proof.Proofs

open Sys2Proof.Machine Sys2Proof.Safety Sys2Proof.Laws

/-- Settles O17: a command that does not decode is answered ILLEGAL_COMMAND; one that decodes is run, and its outcome is one response
(`CommandOutcome.responded`). -/
theorem everyCommandGetsOneResponse : Obligations.EveryCommandGetsOneResponse := by
  intro s rest c hp
  cases hdecode : decode c with
  | error e =>
    exact ⟨_, [], ⟨.illegalCommand, 0, []⟩, step_of_decode_error hp ⟨e, hdecode⟩, by simp, rfl, fun _ => ⟨rfl, rfl⟩,
      fun _ _ _ => rfl, fun _ => rfl⟩
  | ok i =>
    obtain ⟨t, hexec, houtcome⟩ := execWith_outcome hardware i { s with pending := rest }
    obtain ⟨r, hshape, es, htrace, hdraws⟩ := houtcome.responded
    rw [execWith_hardware, ← stepRunsDecodedCommand s rest c i hp hdecode] at hexec
    refine ⟨t, es, r, hexec, htrace, hdraws, hshape.error, ?_, fun hbytes => hshape.bytes fun count hi => ?_⟩
    · rintro i' hdecode' hvalue
      cases hdecode'
      exact hshape.value hvalue
    · exact hbytes count (congrArg Except.ok hi)

end Sys2Proof.Proofs
end

section
/-! INIT and LDSTATE: a legal command loads its operands, an illegal one is answered OUT_OF_RANGE (spec/40_state_commands.md
R70, R71). -/

namespace Sys2Proof.Proofs

open Sys2Proof.Machine Sys2Proof.Safety Sys2Proof.Laws

variable {P : Params} {i : Instr}

/-- The status of a rejected INIT or LDSTATE is OUT_OF_RANGE, whatever VALID is (60_exceptions.md R132). -/
theorem expectedStatus_of_rejected_stateCommand (hst : isStateCommand i = true) (hw : i.wellFormed P = false) (v : Bool) :
    expectedStatus P i v = .outOfRange := by
  rw [expectedStatus, if_pos hw]
  cases i with
  | init _ _ _ | ldstate _ _ _ => rfl
  | _ => cases hst

theorem execWith_rejected_stateCommand (hst : isStateCommand i = true) (hw : i.wellFormed P = false) (s : State) :
    execWith P i s = .next (s.emit (.response ⟨.outOfRange, 0, []⟩)) := by
  have hstatus := expectedStatus_of_rejected_stateCommand hst hw s.valid
  rw [execWith_failed (by simp [hstatus]), hstatus]

theorem wellFormed_init_of_seedValid_false {seed : Word} (hseed : P.seedValid seed = false) (buf fresh : Word) :
    (Instr.init seed buf fresh).wellFormed P = false :=
  Bool.eq_false_iff.2 fun hw => by simp [(wellFormed_init_iff.1 hw).1] at hseed

/-- This hardware's INIT has legal operands exactly when sint64(seed) > 0 and C is at most 64 (00_scope.md R5). -/
theorem wellFormed_hardware_init_iff {seed buf fresh : Word} :
    (Instr.init seed buf fresh).wellFormed hardware = true ↔ 0 < sint64 seed ∧ fresh.toNat ≤ 64 := by
  rw [wellFormed_init_iff, hardware_seedValid_iff]

theorem wellFormed_ldstate_iff {cursor buf fresh : Word} :
    (Instr.ldstate cursor buf fresh).wellFormed P = true ↔ fresh.toNat ≤ 64 := decide_eq_true_iff

end Sys2Proof.Proofs

namespace Sys2Proof.Proofs

open Sys2Proof.Machine Sys2Proof.Safety Sys2Proof.Laws

/-- Settles O47: INIT's operands are legal exactly when the two checks pass (`wellFormed_hardware_init_iff`), and each case is the
law of an accepted or of a rejected state command. -/
theorem initBuildsState : Obligations.InitBuildsState := by
  intro seed buf fresh s
  simp only [← execWith_hardware]
  refine ⟨fun hseed hfresh => ?_, fun hillegal => ?_⟩
  · exact execWith_stateCommand rfl (wellFormed_hardware_init_iff.2 ⟨hseed, hfresh⟩)
  · have hw : (Instr.init seed buf fresh).wellFormed hardware = false :=
      Bool.eq_false_iff.2 (mt wellFormed_hardware_init_iff.1 hillegal)
    exact execWith_rejected_stateCommand rfl hw s

/-- Settles O48: as O47 with any `WS.seedValid`; seed 0 is rejected by the law every source obeys (00_scope.md R5). -/
theorem initFollowsSeedValid : Obligations.InitFollowsSeedValid := by
  intro P seed buf fresh s
  refine ⟨fun hseed hfresh => ?_, fun hseed => ?_, ?_⟩
  · exact execWith_stateCommand rfl (wellFormed_init_iff.2 ⟨hseed, hfresh⟩)
  · exact execWith_rejected_stateCommand rfl (wellFormed_init_of_seedValid_false hseed buf fresh) s
  · exact execWith_rejected_stateCommand rfl (wellFormed_init_of_seedValid_false P.seedValid_zero buf fresh) s

/-- Settles O49: LDSTATE has no check but FRESH's (`wellFormed_ldstate_iff`). -/
theorem ldstateRestoresState : Obligations.LdstateRestoresState := by
  intro cursor buf fresh s
  simp only [← execWith_hardware]
  refine ⟨fun hfresh => ?_, fun hfresh => ?_⟩
  · exact execWith_stateCommand rfl (wellFormed_ldstate_iff.2 hfresh)
  · have hw : (Instr.ldstate cursor buf fresh).wellFormed hardware = false :=
      Bool.eq_false_iff.2 (mt wellFormed_ldstate_iff.1 hfresh.not_ge)
    exact execWith_rejected_stateCommand rfl hw s

end Sys2Proof.Proofs
end

section
/-! MULHI, ASI64 and ASU64: what each answers, the two forms of the product's high half, and `sint64` and `pat` as inverse
readings (spec/41_widemul.md R80 to R84). -/

namespace Sys2Proof.Proofs

open Sys2Proof.Machine Sys2Proof.Safety Sys2Proof.Laws

/-! ### What the stateless commands answer -/

theorem exec_mulhi (x y : Word) (s : State) :
    exec (.mulhi x y) s = .next (s.emit (.response ⟨.ok, mulHigh x y, []⟩)) := rfl

theorem exec_asi64 (u : Word) (s : State) : exec (.asi64 u) s = .next (s.emit (.response ⟨.ok, u, []⟩)) := rfl

theorem exec_asu64 (i : Word) (s : State) : exec (.asu64 i) s = .next (s.emit (.response ⟨.ok, i, []⟩)) := rfl

/-! ### The high half of the product -/

theorem mulHigh_comm (x y : Word) : mulHigh x y = mulHigh y x := by
  rw [mulHigh, mulHigh, scaleHigh, scaleHigh, Nat.mul_comm]

@[simp] theorem mulHigh_zero (x : Word) : mulHigh x 0 = 0 := by
  apply BitVec.eq_of_toNat_eq
  simp [mulHigh_toNat]

@[simp] theorem mulHigh_one (x : Word) : mulHigh x 1 = 0 := by
  apply BitVec.eq_of_toNat_eq
  rw [mulHigh_toNat]
  simpa using Nat.div_eq_of_lt x.isLt

/-- The largest product, (2^64 - 1)^2, is below (2^64 - 1) * 2^64. -/
theorem mulHigh_le (x y : Word) : (mulHigh x y).toNat ≤ 2 ^ 64 - 2 := by
  have hx : x.toNat ≤ 2 ^ 64 - 1 := Nat.le_sub_one_of_lt x.isLt
  have hy : y.toNat ≤ 2 ^ 64 - 1 := Nat.le_sub_one_of_lt y.isLt
  have hproduct : x.toNat * y.toNat ≤ (2 ^ 64 - 1) * (2 ^ 64 - 1) := Nat.mul_le_mul hx hy
  rw [mulHigh_toNat]
  omega

/-- Of a number in its three columns, the high half is the top column and the carries out of the middle one: the low column `ll`
counts for its upper 32 bits only. -/
theorem columns_div (ll lh hl hh : Nat) :
    (2 ^ 64 * hh + 2 ^ 32 * (lh + hl) + ll) / 2 ^ 64 =
      hh + high32 lh + high32 hl + high32 (high32 ll + low32 lh + low32 hl) := by
  simp only [high32, low32]
  omega

/-- A product split at bit 32 of both factors. -/
theorem mul_eq_columns (x y : Nat) :
    x * y = 2 ^ 64 * (high32 x * high32 y) + 2 ^ 32 * (low32 x * high32 y + high32 x * low32 y) + low32 x * low32 y := by
  have hx : x = 2 ^ 32 * high32 x + low32 x := (Nat.div_add_mod x (2 ^ 32)).symm
  have hy : y = 2 ^ 32 * high32 y + low32 y := (Nat.div_add_mod y (2 ^ 32)).symm
  calc x * y = (2 ^ 32 * high32 x + low32 x) * (2 ^ 32 * high32 y + low32 y) := by rw [← hx, ← hy]
    _ = _ := by ring

theorem mulHighPartial_eq_mulHigh (x y : Word) : mulHighPartial x y = mulHigh x y := by
  rw [mulHigh, scaleHigh, mul_eq_columns, columns_div, mulHighPartial]

/-! ### The two readings of a word -/

theorem pat_sint64 (u : Word) : pat (sint64 u) = u := by
  rw [sint64_eq_toInt, pat, BitVec.ofInt_toInt]

theorem sint64_pat {i : Int} (hlow : -2 ^ 63 ≤ i) (hhigh : i < 2 ^ 63) : sint64 (pat i) = i := by
  rw [sint64_eq_toInt, pat]
  exact BitVec.toInt_ofInt_eq_self (by decide) hlow hhigh

theorem le_sint64 (u : Word) : -2 ^ 63 ≤ sint64 u := by
  rw [sint64_eq_toInt]
  exact BitVec.le_toInt u

theorem sint64_lt (u : Word) : sint64 u < 2 ^ 63 := by
  rw [sint64_eq_toInt]
  exact BitVec.toInt_lt

end Sys2Proof.Proofs

namespace Sys2Proof.Proofs

open Sys2Proof.Machine Sys2Proof.Safety Sys2Proof.Laws

/-- Settles O20: MULHI answers `mulHigh`, whose number is the floor because it fits a word (`mulHigh_toNat`). -/
theorem mulhiAnswersHighHalf : Obligations.MulhiAnswersHighHalf := by
  intro x y s
  exact ⟨mulHigh x y, mulHigh_toNat x y, exec_mulhi x y s⟩

/-- Settles O21: both forms are the high half of one product in columns (`mulHighPartial_eq_mulHigh`). -/
theorem mulhiPartialProductsAgree : Obligations.MulhiPartialProductsAgree := by
  intro x y s
  rw [mulHighPartial_eq_mulHigh]
  exact exec_mulhi x y s

/-- Settles O22: each clause is a law of `mulHigh`. -/
theorem mulhiCornerCases : Obligations.MulhiCornerCases := by
  intro x y s
  refine ⟨?_, mulHigh_le x y, mulHigh_zero x, ?_, mulHigh_one x⟩
  · rw [exec_mulhi, exec_mulhi, mulHigh_comm]
  · rw [mulHigh_comm, mulHigh_zero]

/-- Settles O23: each command responds with its operand word (`exec_asi64`, `exec_asu64`). -/
theorem reinterpretationKeepsBits : Obligations.ReinterpretationKeepsBits := by
  intro u s
  exact ⟨exec_asi64 u s, exec_asu64 u s⟩

/-- Settles O24: the commands pass the word on, so the round trips are those of the readings (`sint64_pat`, `pat_sint64`). -/
theorem reinterpretationRoundTrips : Obligations.ReinterpretationRoundTrips := by
  refine ⟨fun u s => ?_, fun i s hlow hhigh => ?_, fun u => ⟨le_sint64 u, sint64_lt u, pat_sint64 u⟩⟩
  · exact ⟨_, u, exec_asi64 u s, State.emit_trace .., exec_asu64 u _⟩
  · exact ⟨_, pat i, pat i, exec_asu64 (pat i) s, State.emit_trace .., exec_asi64 (pat i) _, sint64_pat hlow hhigh⟩

end Sys2Proof.Proofs
end

section
/-! Commands that are not accepted (spec/60_exceptions.md R131 to R133): an operand error goes before NOT_INITIALIZED, and either is
the command's whole effect. -/

namespace Sys2Proof.Proofs

open Sys2Proof.Machine Sys2Proof.Safety Sys2Proof.Laws

variable {P : Params} {i : Instr} {s : State}

theorem operandError_ne_ok (i : Instr) : operandError i ≠ .ok := by
  cases i <;> exact Status.noConfusion

/-- Illegal operands raise the command's operand error, whatever VALID is. -/
theorem execWith_operandError (hw : i.wellFormed P = false) :
    execWith P i s = .next (s.emit (.response ⟨operandError i, 0, []⟩)) := by
  have hstatus : expectedStatus P i s.valid = operandError i := if_pos hw
  rw [execWith_failed (hstatus ▸ operandError_ne_ok i), hstatus]

/-- A generator with legal operands raises NOT_INITIALIZED while VALID = 0. -/
theorem execWith_notInitialized (hgen : isGenerator i = true) (hw : i.wellFormed P = true) (hv : s.valid = false) :
    execWith P i s = .next (s.emit (.response ⟨.notInitialized, 0, []⟩)) := by
  have hstatus : expectedStatus P i s.valid = .notInitialized := by simp [expectedStatus, hw, hgen, hv]
  rw [execWith_failed (by simp [hstatus]), hstatus]

end Sys2Proof.Proofs
end

section
/-! NEXTN and the two cases of `Take`, with whole numbers for the bit operations (spec/42_bitfield.md R90, R91). -/

namespace Sys2Proof.Proofs

open Sys2Proof.Machine Sys2Proof.Safety Sys2Proof.Laws

variable {P : Params} {s : State} {n : Word}

/-! ### The bit operations of R90 as arithmetic -/

theorem and_mask_eq_ofNat_mod (x : Word) (k : Nat) : x &&& mask k = BitVec.ofNat 64 (x.toNat % 2 ^ k) := by
  rw [← Nat.and_two_pow_sub_one_eq_mod, BitVec.ofNat_and, BitVec.ofNat_toNat, BitVec.setWidth_eq, mask]

theorem shiftRight_eq_ofNat_div (x : Word) (k : Nat) : shiftRight x k = BitVec.ofNat 64 (x.toNat / 2 ^ k) := by
  apply BitVec.eq_of_toNat_eq
  have hlt : x.toNat / 2 ^ k < 2 ^ 64 := (Nat.div_le_self ..).trans_lt x.isLt
  rw [shiftRight, BitVec.toNat_ushiftRight, Nat.shiftRight_eq_div_pow, BitVec.toNat_ofNat, Nat.mod_eq_of_lt hlt]

/-- Setting a field above `f` lower bits adds it, moved up by `f` places: the two have no bit in common. -/
theorem low_or_shiftLeft_eq_ofNat {low f : Nat} (hlow : low < 2 ^ f) (high : Nat) :
    BitVec.ofNat 64 low ||| shiftLeft (BitVec.ofNat 64 high) f = BitVec.ofNat 64 (low + high * 2 ^ f) := by
  have hshift : shiftLeft (BitVec.ofNat 64 high) f = BitVec.ofNat 64 (high <<< f) := by
    apply BitVec.eq_of_toNat_eq
    simp [shiftLeft, Nat.shiftLeft_eq]
  rw [hshift, BitVec.or_comm, ← BitVec.ofNat_or, ← Nat.shiftLeft_add_eq_or_of_lt hlow, Nat.shiftLeft_eq, Nat.add_comm]

/-! ### Which way NEXTN goes -/

theorem wellFormed_nextn_iff : (Instr.nextn n).wellFormed P = true ↔ 1 ≤ n.toNat ∧ n.toNat ≤ 64 := by
  simp [Instr.wellFormed]

theorem wellFormed_nextn_eq_false_iff : (Instr.nextn n).wellFormed P = false ↔ n.toNat < 1 ∨ 64 < n.toNat := by
  rw [← Bool.not_eq_true, wellFormed_nextn_iff]
  omega

/-- An accepted NEXTN makes one `Take` and answers its field. -/
theorem execWith_nextn (hv : s.valid = true) (hlow : 1 ≤ n.toNat) (hhigh : n.toNat ≤ 64) :
    execWith P (.nextn n) s =
      .next ((take P n.toNat s).2.emit (.response ⟨.ok, (take P n.toNat s).1, []⟩)) :=
  execWith_generator rfl hv (wellFormed_nextn_iff.2 ⟨hlow, hhigh⟩)

end Sys2Proof.Proofs

namespace Sys2Proof.Proofs

open Sys2Proof.Machine Sys2Proof.Safety Sys2Proof.Laws

/-- Settles O25: NEXTN answers one `Take` (`execWith_nextn`), and its two cases are R90's once their masks and shifts are read as
arithmetic. -/
theorem nextnTakesField : Obligations.NextnTakesField := by
  intro n s hv hlow hhigh
  rw [← execWith_hardware, execWith_nextn hv hlow hhigh]
  refine ⟨fun hle => ?_, fun hlt => ?_⟩
  · rw [take_of_le hle, and_mask_eq_ofNat_mod, shiftRight_eq_ofNat_div]
    rfl
  · rw [take_of_lt hlt, and_mask_eq_ofNat_mod, and_mask_eq_ofNat_mod, shiftRight_eq_ofNat_div,
      low_or_shiftLeft_eq_ofNat (Nat.mod_lt _ (Nat.two_pow_pos _)),
      List.append_cons]
    rfl

/-- Settles O26: the errors go by R133's order, and an accepted NEXTN consumes the bits it answers (`CommandOutcome.consumed`). -/
theorem nextnAnswersStreamBits : Obligations.NextnAnswersStreamBits := by
  intro n s
  simp only [← execWith_hardware]
  refine ⟨fun hillegal => ?_, fun hlow hhigh hv => ?_, fun hlow hhigh hv hs => ?_⟩
  · exact execWith_operandError (wellFormed_nextn_eq_false_iff.2 hillegal)
  · exact execWith_notInitialized rfl (wellFormed_nextn_iff.2 ⟨hlow, hhigh⟩) hv
  · have hok := (expectedStatus_ok_iff_of_valid hv).2 (wellFormed_nextn_iff (P := hardware).2 ⟨hlow, hhigh⟩)
    obtain ⟨t, hexec, h⟩ := execWith_outcome hardware (.nextn n) s
    have hconsumed := h.consumed hs rfl hok
    rw [expectedResponse_of_ok hok] at hconsumed
    exact ⟨t, hexec, hconsumed⟩

end Sys2Proof.Proofs
end

section
/-! The derived generators that answer words and bytes of the stream (spec/43_generators.md R100 to R103, R106): which operands are
legal, and what the accepted response of `acceptedResponse` is as a number. -/

namespace Sys2Proof.Proofs

open Sys2Proof.Machine Sys2Proof.Safety Sys2Proof.Laws

variable {P : Params} {i : Instr} {s : State}

/-! ### Accepted and refused generators on this hardware -/

/-- An accepted generator takes its bits and answers what its operands and the stream give. -/
theorem exec_generator (hgen : isGenerator i = true) (hw : i.wellFormed hardware = true) (hv : s.valid = true)
    (hs : FreshInRange s) :
    ∃ t, exec i s = .next t ∧
      Consumed hardware (bitsTaken i) s (acceptedResponse hardware i (streamBit hardware s)) t := by
  have hok := (expectedStatus_ok_iff_of_valid hv).2 hw
  obtain ⟨t, hexec, h⟩ := execWith_outcome hardware i s
  refine ⟨t, (execWith_hardware i s).symm.trans hexec, ?_⟩
  rw [← expectedResponse_of_ok hok]
  exact h.consumed hs hgen hok

theorem exec_operandError (hw : i.wellFormed hardware = false) :
    exec i s = .next (s.emit (.response ⟨operandError i, 0, []⟩)) :=
  (execWith_hardware i s).symm.trans (execWith_operandError hw)

theorem exec_notInitialized (hgen : isGenerator i = true) (hw : i.wellFormed hardware = true) (hv : s.valid = false) :
    exec i s = .next (s.emit (.response ⟨.notInitialized, 0, []⟩)) :=
  (execWith_hardware i s).symm.trans (execWith_notInitialized hgen hw hv)

/-! ### Legal operands (30_encoding.md R53) -/

theorem wellFormed_nextu64b_iff {max : Word} : (Instr.nextu64b max).wellFormed P = true ↔ max.toNat ≠ 0 :=
  decide_eq_true_iff.trans Nat.one_le_iff_ne_zero

theorem wellFormed_nextu64b_eq_false_iff {max : Word} : (Instr.nextu64b max).wellFormed P = false ↔ max.toNat = 0 := by
  rw [← Bool.not_eq_true, wellFormed_nextu64b_iff, not_not]

theorem wellFormed_nextu64r_iff {lo hi : Word} : (Instr.nextu64r lo hi).wellFormed P = true ↔ lo.toNat < hi.toNat :=
  decide_eq_true_iff

theorem wellFormed_nextu64r_eq_false_iff {lo hi : Word} :
    (Instr.nextu64r lo hi).wellFormed P = false ↔ hi.toNat ≤ lo.toNat := by
  rw [← Bool.not_eq_true, wellFormed_nextu64r_iff, not_lt]

theorem wellFormed_nextbytes_iff {count : Word} : (Instr.nextbytes count).wellFormed P = true ↔ 0 ≤ sint64 count := by
  rw [sint64_eq_toInt]
  exact decide_eq_true_iff

theorem wellFormed_nextbytes_eq_false_iff {count : Word} :
    (Instr.nextbytes count).wellFormed P = false ↔ sint64 count < 0 := by
  rw [← Bool.not_eq_true, wellFormed_nextbytes_iff, not_le]

/-! ### The answers as numbers -/

/-- A number below a word fits a word. -/
theorem toNat_ofNat_of_lt {n : Nat} {w : Word} (h : n < w.toNat) : (BitVec.ofNat 64 n).toNat = n := by
  rw [BitVec.toNat_ofNat, Nat.mod_eq_of_lt (h.trans w.isLt)]

theorem toNat_ofNat_streamNat (σ : Nat → Bool) : (BitVec.ofNat 64 (streamNat σ 64)).toNat = streamNat σ 64 := by
  rw [BitVec.toNat_ofNat, Nat.mod_eq_of_lt (streamNat_lt σ 64)]

/-- Scaling by 2^k keeps the top `k` bits (43_generators.md R101). -/
theorem mul_two_pow_div_two_pow {k n : Nat} (hk : k ≤ n) (x : Nat) : x * 2 ^ k / 2 ^ n = x / 2 ^ (n - k) := by
  rw [← Nat.sub_add_cancel hk, pow_add, Nat.mul_div_mul_right _ _ (Nat.two_pow_pos k), Nat.add_sub_cancel]

/-- NEXTU64R's exact sum lies in its range, so that it fits a word (43_generators.md R102). -/
theorem add_scaleHigh_lt {x lo hi : Nat} (hx : x < 2 ^ 64) (hlt : lo < hi) : lo + scaleHigh x (hi - lo) < hi := by
  have hscaled := scaleHigh_lt hx (Nat.sub_pos_of_lt hlt)
  omega

/-- A range from 0 is a bound: the two range commands then scale by the same number (43_generators.md R102). -/
theorem exec_nextu64r_zero {hi : Word} (hpos : 0 < hi.toNat) : exec (.nextu64r 0 hi) s = exec (.nextu64b hi) s := by
  have hvalue : (fun v : Word => BitVec.ofNat 64 (uint64 0 + scaleHigh (uint64 v) (uint64 hi - uint64 0))) =
      fun v => mulHigh v hi := by
    funext v
    exact congrArg (BitVec.ofNat 64) (Nat.zero_add _)
  calc exec (.nextu64r 0 hi) s
      = whenValid s (takeAndRespond hardware 64 fun v =>
          BitVec.ofNat 64 (uint64 0 + scaleHigh (uint64 v) (uint64 hi - uint64 0))) := if_neg (not_not_intro hpos)
    _ = whenValid s (takeAndRespond hardware 64 fun v => mulHigh v hi) := by rw [hvalue]
    _ = exec (.nextu64b hi) s := (if_neg hpos.ne').symm

/-- NEXTN's width check passes 64, and NEXTU64 is then the same take (43_generators.md R100). -/
theorem exec_nextu64_eq_nextn : exec .nextu64 s = exec (.nextn 64) s := by
  have hwidth : ¬ (uint64 64 < 1 ∨ 64 < uint64 64) := by decide
  show _ = nextnWith hardware 64 s
  rw [nextnWith, if_neg hwidth]
  rfl

theorem sint64_of_bit63_clear {x : Word} (h : x.getLsbD 63 = false) : sint64 x = (x.toNat : Int) := by
  rw [sint64, h, if_neg Bool.false_ne_true]

theorem sint64_of_bit63_set {x : Word} (h : x.getLsbD 63 = true) : sint64 x = (x.toNat : Int) - 2 ^ 64 := by
  rw [sint64, h, if_pos rfl]

/-- The sign bit of the next 64 stream bits is the last of them (43_generators.md R103). -/
theorem ofNat_streamNat_bit63 (σ : Nat → Bool) : (BitVec.ofNat 64 (streamNat σ 64)).getLsbD 63 = σ 63 := by
  rw [BitVec.getLsbD_ofNat, streamNat_testBit]
  exact Bool.true_and _

theorem bitsTaken_nextbytes (count : Word) : bitsTaken (.nextbytes count) = 8 * count.toNat := by
  rw [bitsTaken, takeWidths, List.sum_replicate, smul_eq_mul, Nat.mul_comm]

/-- Bit `j` of stream byte `k` is stream bit `8k + j` (20_memory.md R43). -/
theorem streamByte_getLsbD (σ : Nat → Bool) (k : Nat) {j : Nat} (hj : j < 8) :
    (BitVec.ofNat 8 (streamNat (streamDrop σ (8 * k)) 8)).getLsbD j = σ (8 * k + j) := by
  rw [BitVec.getLsbD_ofNat, streamNat_testBit, decide_eq_true hj, Bool.true_and, Bool.true_and, streamDrop]

end Sys2Proof.Proofs

namespace Sys2Proof.Proofs

open Sys2Proof.Machine Sys2Proof.Safety Sys2Proof.Laws

/-- Settles O35: NEXTU64 has no operands to check and answers its 64 bits (`exec_generator`); NEXTN 64 passes its width check. -/
theorem nextu64AnswersStreamBits : Obligations.Nextu64AnswersStreamBits := fun _ =>
  ⟨exec_notInitialized rfl rfl, exec_generator rfl rfl, exec_nextu64_eq_nextn⟩

/-- Settles O36: the answer fits a word because it is below the bound (`scaleHigh_lt`). -/
theorem nextu64bScalesStreamBits : Obligations.Nextu64bScalesStreamBits := by
  intro max s
  refine ⟨fun hzero => ?_, fun hbound hv => ?_, fun hbound hv hs => ?_⟩
  · exact exec_operandError (wellFormed_nextu64b_eq_false_iff.2 hzero)
  · exact exec_notInitialized rfl (wellFormed_nextu64b_iff.2 hbound) hv
  · obtain ⟨t, hexec, hconsumed⟩ := exec_generator rfl (wellFormed_nextu64b_iff.2 hbound) hv hs
    have hlt := scaleHigh_lt (streamNat_lt (streamBit hardware s) 64) (Nat.pos_of_ne_zero hbound)
    have hvalue := toNat_ofNat_of_lt hlt
    exact ⟨t, BitVec.ofNat 64 (scaleHigh _ _), hexec, hvalue, hvalue.trans_lt hlt, hconsumed⟩

/-- Settles O37: scaling by 2^k and dropping 64 bits is the right shift by 64 - k (`mul_two_pow_div_two_pow`). -/
theorem nextu64bPowerOfTwoBound : Obligations.Nextu64bPowerOfTwoBound := by
  intro k s hk hv hs
  have hmax : (BitVec.ofNat 64 (2 ^ k)).toNat = 2 ^ k := Nat.mod_eq_of_lt (Nat.pow_lt_pow_right (by decide) hk)
  have hbound : (BitVec.ofNat 64 (2 ^ k)).toNat ≠ 0 := hmax.trans_ne (Nat.two_pow_pos k).ne'
  obtain ⟨t, hexec, hconsumed⟩ := exec_generator rfl (wellFormed_nextu64b_iff.2 hbound) hv hs
  refine ⟨t, hexec, ?_⟩
  rw [shiftRight_eq_ofNat_div, toNat_ofNat_streamNat, ← mul_two_pow_div_two_pow hk.le, ← hmax]
  exact hconsumed

/-- Settles O38: the exact sum fits a word because it is below `hi` (`add_scaleHigh_lt`); a range from 0 is NEXTU64B's
(`exec_nextu64r_zero`). -/
theorem nextu64rScalesStreamBits : Obligations.Nextu64rScalesStreamBits := by
  intro lo hi s
  refine ⟨fun hempty => ?_, fun hlt hv => ?_, fun hlt hv hs => ?_, exec_nextu64r_zero⟩
  · exact exec_operandError (wellFormed_nextu64r_eq_false_iff.2 hempty)
  · exact exec_notInitialized rfl (wellFormed_nextu64r_iff.2 hlt) hv
  · obtain ⟨t, hexec, hconsumed⟩ := exec_generator rfl (wellFormed_nextu64r_iff.2 hlt) hv hs
    have hsum := add_scaleHigh_lt (streamNat_lt (streamBit hardware s) 64) hlt
    have hvalue := toNat_ofNat_of_lt hsum
    exact ⟨t, BitVec.ofNat 64 (lo.toNat + scaleHigh _ _), hexec, hvalue, (Nat.le_add_right ..).trans_eq hvalue.symm,
      hvalue.trans_lt hsum, hconsumed⟩

/-- Settles O39: the sign bit of the answer is stream bit 63, on which `sint64` turns (00_scope.md R7). -/
theorem nexti64AnswersSignedBits : Obligations.Nexti64AnswersSignedBits := by
  intro s
  refine ⟨exec_notInitialized rfl rfl, fun hv hs => ?_⟩
  obtain ⟨t, hexec, hconsumed⟩ := exec_generator (i := .nexti64) rfl rfl hv hs
  have hvalue := toNat_ofNat_streamNat (streamBit hardware s)
  have hsign := ofNat_streamNat_bit63 (streamBit hardware s)
  refine ⟨t, _, hexec, hconsumed, hvalue, fun hclear => ?_, fun hset => ?_⟩
  · rw [sint64_of_bit63_clear (hsign.trans hclear), hvalue]
  · rw [sint64_of_bit63_set (hsign.trans hset), hvalue]

/-- Settles O44: the response's byte list is the stream's bytes in order, and each is eight stream bits (`streamByte_getLsbD`). -/
theorem nextbytesAnswersStreamBytes : Obligations.NextbytesAnswersStreamBytes := by
  intro count s
  refine ⟨fun hnegative => ?_, fun hcount hv => ?_, fun hcount hv hs => ?_⟩
  · exact exec_operandError (wellFormed_nextbytes_eq_false_iff.2 hnegative)
  · exact exec_notInitialized rfl (wellFormed_nextbytes_iff.2 hcount) hv
  · obtain ⟨t, hexec, hconsumed⟩ := exec_generator rfl (wellFormed_nextbytes_iff.2 hcount) hv hs
    rw [bitsTaken_nextbytes] at hconsumed
    refine ⟨t, _, hexec, hconsumed, by rw [List.length_map, List.length_range], fun k b hb j hj => ?_⟩
    obtain ⟨k', hk, rfl⟩ := List.getElem?_map ▸ hb |> Option.map_eq_some_iff.1
    obtain ⟨-, rfl⟩ := List.getElem?_eq_some_iff.1 hk
    rw [List.getElem_range, streamByte_getLsbD _ _ hj]

end Sys2Proof.Proofs
end

section
/-! How often the range commands give each result (spec/43_generators.md R107): the inputs that give it are an interval of whole
numbers whose ends are ceilings. -/

namespace Sys2Proof.Proofs

open Sys2Proof.Machine Sys2Proof.Safety Sys2Proof.Laws

variable {m r v : Nat}

/-- The inputs with result `r` are those from `r * 2^64 / m` on and below `(r + 1) * 2^64 / m`, both ends rounded up. -/
theorem scaleHigh_eq_iff (hm : 0 < m) :
    scaleHigh v m = r ↔ r * 2 ^ 64 ⌈/⌉ m ≤ v ∧ v < (r + 1) * 2 ^ 64 ⌈/⌉ m := by
  have hfloor : r ≤ scaleHigh v m ↔ r * 2 ^ 64 ⌈/⌉ m ≤ v := by
    rw [ceilDiv_le_iff_le_mul hm, scaleHigh, Nat.le_div_iff_mul_le (Nat.two_pow_pos 64), Nat.mul_comm v m]
  have hnext : scaleHigh v m < r + 1 ↔ v < (r + 1) * 2 ^ 64 ⌈/⌉ m := by
    rw [← not_le (a := _ ⌈/⌉ m), ceilDiv_le_iff_le_mul hm, not_le, scaleHigh, Nat.div_lt_iff_lt_mul (Nat.two_pow_pos 64),
      Nat.mul_comm v m]
  rw [← hfloor, ← hnext]
  omega

/-- Below the bound no result needs an input of 2^64 or more. -/
theorem filter_scaleHigh_eq_Ico (hr : r < m) :
    (Finset.range (2 ^ 64)).filter (fun v => scaleHigh v m = r) =
      Finset.Ico (r * 2 ^ 64 ⌈/⌉ m) ((r + 1) * 2 ^ 64 ⌈/⌉ m) := by
  have hm : 0 < m := Nat.zero_lt_of_lt hr
  have hend : (r + 1) * 2 ^ 64 ⌈/⌉ m ≤ 2 ^ 64 := (ceilDiv_le_iff_le_mul hm).2 (Nat.mul_le_mul_right _ hr)
  ext v
  rw [Finset.mem_filter, Finset.mem_range, Finset.mem_Ico, scaleHigh_eq_iff hm]
  exact and_iff_right_of_imp fun ⟨_, hv⟩ => hv.trans_le hend

/-- An interval of length `n / m` between ceilings holds the floor or the ceiling of its length. -/
theorem add_ceilDiv_sub_ceilDiv (hm : 0 < m) (a n : Nat) :
    (a + n) ⌈/⌉ m - a ⌈/⌉ m = n / m ∨ (a + n) ⌈/⌉ m - a ⌈/⌉ m = n ⌈/⌉ m := by
  have hsum : (a + n) ⌈/⌉ m = a ⌈/⌉ m + n / m + if m ≤ (a + m - 1) % m + n % m then 1 else 0 := by
    rw [Nat.ceilDiv_eq_add_pred_div, Nat.ceilDiv_eq_add_pred_div, ← Nat.add_div hm]
    congr 1
    omega
  have hceil : n ⌈/⌉ m = n / m + if m ≤ n % m + (m - 1) then 1 else 0 := by
    have hpred : m - 1 < m := Nat.sub_one_lt hm.ne'
    rw [Nat.ceilDiv_eq_add_pred_div, Nat.add_sub_assoc hm, Nat.add_div hm, Nat.div_eq_of_lt hpred, Nat.mod_eq_of_lt hpred,
      Nat.add_zero]
  have hmod : (a + m - 1) % m < m := Nat.mod_lt _ hm
  rw [hsum, hceil, Nat.add_assoc, Nat.add_sub_cancel_left]
  by_cases hcarry : m ≤ (a + m - 1) % m + n % m
  · have hround : m ≤ n % m + (m - 1) := by omega
    exact .inr (by rw [if_pos hcarry, if_pos hround])
  · exact .inl (by rw [if_neg hcarry, Nat.add_zero])

end Sys2Proof.Proofs

namespace Sys2Proof.Proofs

/-- Settles O46: the inputs of a result are an interval of length 2^64 / m (`filter_scaleHigh_eq_Ico`,
`add_ceilDiv_sub_ceilDiv`). -/
theorem rangeResultCounts : Obligations.RangeResultCounts := by
  intro m r hr _
  rw [filter_scaleHigh_eq_Ico hr, Nat.card_Ico, ← Nat.ceilDiv_eq_add_pred_div, Nat.add_one_mul]
  exact add_ceilDiv_sub_ceilDiv (Nat.zero_lt_of_lt hr) _ _

end Sys2Proof.Proofs
end

section
/-! Binary64 patterns (spec/43_generators.md R104; the layout, log entry 17): the fields and the value of a packed pattern, and the
gap above each of its values, in which no binary64 value lies. -/

namespace Sys2Proof.Proofs

open Sys2Proof.Machine Sys2Proof.Safety Sys2Proof.Laws

variable {b : Word} {e m : Nat}

/-! ### The fields of a packed pattern -/

theorem packF64_toNat (he : e < 2 ^ 11) (m : Nat) : (packF64 e m).toNat = e * 2 ^ 52 + m % 2 ^ 52 := by
  have hm : m % 2 ^ 52 < 2 ^ 52 := Nat.mod_lt _ (Nat.two_pow_pos 52)
  rw [packF64, BitVec.toNat_append, BitVec.toNat_append, BitVec.toNat_ofNat, BitVec.toNat_ofNat, BitVec.toNat_ofNat,
    Nat.zero_mod, Nat.zero_shiftLeft, Nat.zero_or, Nat.mod_eq_of_lt he, ← Nat.shiftLeft_add_eq_or_of_lt hm, Nat.shiftLeft_eq]

theorem f64Exponent_packF64 (he : e < 2 ^ 11) (m : Nat) : f64Exponent (packF64 e m) = e := by
  rw [f64Exponent, packF64_toNat he]
  omega

theorem f64Fraction_packF64 (he : e < 2 ^ 11) (m : Nat) : f64Fraction (packF64 e m) = m % 2 ^ 52 := by
  rw [f64Fraction, packF64_toNat he]
  omega

theorem isPositiveNormal_packF64 (hlow : 1 ≤ e) (hhigh : e ≤ 2046) (m : Nat) : IsPositiveNormal (packF64 e m) := by
  have he : e < 2 ^ 11 := by omega
  have hsign : (packF64 e m).getLsbD 63 = false := by
    refine Nat.testBit_lt_two_pow ?_
    rw [packF64_toNat he]
    omega
  rw [IsPositiveNormal, f64Exponent_packF64 he]
  exact ⟨hsign, hlow, hhigh⟩

/-! ### Values -/

theorem f64Value_zero : f64Value 0 = 0 := if_pos rfl

/-- The value of a positive normal pattern as a whole significand in units of its last place. -/
theorem f64Value_of_isPositiveNormal (h : IsPositiveNormal b) :
    f64Value b = ((2 ^ 52 + f64Fraction b : Nat) : ℚ) * 2 ^ ((f64Exponent b : ℤ) - 1075) := by
  have hne : b ≠ 0 := by
    rintro rfl
    exact absurd h.2.1 (by decide)
  have hscale : (2 : ℚ) ^ ((f64Exponent b : ℤ) - 1023) = 2 ^ 52 * 2 ^ ((f64Exponent b : ℤ) - 1075) := by
    rw [← zpow_natCast, ← zpow_add₀ two_ne_zero]
    congr 1
    push_cast
    ring
  rw [f64Value, if_neg hne, hscale]
  push_cast
  ring

theorem f64Value_packF64 (hlow : 1 ≤ e) (hhigh : e ≤ 2046) (hm : 2 ^ 52 ≤ m) (hm' : m < 2 ^ 53) :
    f64Value (packF64 e m) = (m : ℚ) * 2 ^ ((e : ℤ) - 1075) := by
  have he : e < 2 ^ 11 := by omega
  have hsignificand : 2 ^ 52 + m % 2 ^ 52 = m := by omega
  rw [f64Value_of_isPositiveNormal (isPositiveNormal_packF64 hlow hhigh m), f64Exponent_packF64 he, f64Fraction_packF64 he,
    hsignificand]

theorem f64Value_nonneg (b : Word) : 0 ≤ f64Value b := by
  rw [f64Value]
  split
  · exact le_rfl
  · positivity

/-! ### The gap above a value -/

/-- Between `m * 2^x` and `(m + 1) * 2^x`, for a 53-bit significand `m`, lies no binary64 value: a value with a larger exponent is
a whole multiple of 2^x, and one with a smaller exponent is at most `2^52 * 2^x`. -/
theorem f64Value_le_or_ge (hb : IsF64 b) (hm : 2 ^ 52 ≤ m) (x : ℤ) :
    f64Value b ≤ (m : ℚ) * 2 ^ x ∨ ((m + 1 : Nat) : ℚ) * 2 ^ x ≤ f64Value b := by
  obtain rfl | hnormal := hb
  · rw [f64Value_zero]
    exact .inl (by positivity)
  rw [f64Value_of_isPositiveNormal hnormal]
  have hsignificand : 2 ^ 52 + f64Fraction b < 2 ^ 53 := by
    have hfraction : f64Fraction b < 2 ^ 52 := Nat.mod_lt _ (Nat.two_pow_pos 52)
    omega
  generalize 2 ^ 52 + f64Fraction b = n at hsignificand
  generalize (f64Exponent b : ℤ) - 1075 = y
  obtain hxy | hyx := le_or_gt x y
  · obtain ⟨k, rfl⟩ := Int.le.dest hxy
    have hmultiple : (n : ℚ) * 2 ^ (x + (k : ℤ)) = ((n * 2 ^ k : Nat) : ℚ) * 2 ^ x := by
      rw [zpow_add₀ two_ne_zero, zpow_natCast]
      push_cast
      ring
    rw [hmultiple]
    refine (le_or_gt (n * 2 ^ k) m).imp (fun hle => ?_) (fun hlt => ?_) <;> gcongr
    exact hlt
  · refine .inl ?_
    calc (n : ℚ) * 2 ^ y ≤ 2 ^ 53 * 2 ^ y := by
          gcongr
          exact_mod_cast hsignificand.le
      _ = 2 ^ 52 * 2 ^ (y + 1) := by rw [zpow_add_one₀ two_ne_zero]; ring
      _ ≤ (m : ℚ) * 2 ^ x := by
          gcongr
          · exact_mod_cast hm
          · exact one_le_two
          · exact hyx

end Sys2Proof.Proofs
end

section
/-! `UnitF64(v)` between its two neighbours (spec/43_generators.md R104): v / 2^64 lies between two adjacent binary64 values,
whose significands are the top 53 bits of `v` and the next whole number; RTZ gives the lower one, RNE the nearer one. -/

namespace Sys2Proof.Proofs

open Sys2Proof.Machine Sys2Proof.Safety Sys2Proof.Laws

variable {v b : Word} {e m : Nat} {lo hi x y : ℚ}

/-! ### Significand and dropped bits -/

/-- The 53-bit significand of `v`, its top bit moved to bit 52: R104's `m` before any rounding, in both of its cases. -/
def unitSignificand (v : Word) : Nat := v.toNat * 2 ^ 52 / 2 ^ v.toNat.log2

/-- What the significand leaves of `v`, in units of 2^-116: R104's `rem` times 2^52, and 0 where R104 drops nothing. -/
def unitDropped (v : Word) : Nat := v.toNat * 2 ^ 52 % 2 ^ v.toNat.log2

/-- The binary64 value just not above v / 2^64. -/
def unitLower (v : Word) : ℚ := (unitSignificand v : ℚ) * 2 ^ v.toNat.log2 / 2 ^ 116

/-- The binary64 value just above v / 2^64. -/
def unitUpper (v : Word) : ℚ := ((unitSignificand v + 1 : Nat) : ℚ) * 2 ^ v.toNat.log2 / 2 ^ 116

/-- R104's condition for RNE to go up: more than half a unit of the last place is dropped, or half of it and the significand is
odd. -/
def RoundsToNext (v : Word) : Prop :=
  2 ^ v.toNat.log2 < 2 * unitDropped v ∨ (2 * unitDropped v = 2 ^ v.toNat.log2 ∧ unitSignificand v % 2 = 1)

theorem toNat_ne_zero (hv : v ≠ 0) : v.toNat ≠ 0 := BitVec.toNat_ne_iff_ne.2 hv

theorem log2_toNat_le (hv : v ≠ 0) : v.toNat.log2 ≤ 63 :=
  Nat.le_of_lt_succ ((Nat.log2_lt (toNat_ne_zero hv)).2 v.isLt)

theorem le_unitSignificand (hv : v ≠ 0) : 2 ^ 52 ≤ unitSignificand v := by
  rw [unitSignificand, Nat.le_div_iff_mul_le (Nat.two_pow_pos _), Nat.mul_comm]
  exact Nat.mul_le_mul_right _ (Nat.log2_self_le (toNat_ne_zero hv))

theorem unitSignificand_lt (v : Word) : unitSignificand v < 2 ^ 53 := by
  have hlog : v.toNat < 2 ^ (v.toNat.log2 + 1) := Nat.lt_log2_self
  rw [unitSignificand, Nat.div_lt_iff_lt_mul (Nat.two_pow_pos _)]
  omega

theorem unitSignificand_of_le (hp : v.toNat.log2 ≤ 52) : unitSignificand v = v.toNat * 2 ^ (52 - v.toNat.log2) := by
  rw [unitSignificand, Nat.mul_div_assoc _ (Nat.pow_dvd_pow 2 hp), Nat.pow_div hp (by decide)]

theorem unitDropped_of_le (hp : v.toNat.log2 ≤ 52) : unitDropped v = 0 :=
  Nat.mod_eq_zero_of_dvd (Dvd.dvd.mul_left (Nat.pow_dvd_pow 2 hp) _)

theorem two_pow_eq_mul_two_pow_52 {p : Nat} (hp : 52 ≤ p) : 2 ^ p = 2 ^ (p - 52) * 2 ^ 52 := by
  rw [← pow_add, Nat.sub_add_cancel hp]

theorem unitSignificand_of_ge (hp : 52 ≤ v.toNat.log2) : unitSignificand v = v.toNat / 2 ^ (v.toNat.log2 - 52) := by
  rw [unitSignificand, two_pow_eq_mul_two_pow_52 hp, Nat.mul_div_mul_right _ _ (Nat.two_pow_pos 52)]

theorem unitDropped_of_ge (hp : 52 ≤ v.toNat.log2) : unitDropped v = v.toNat % 2 ^ (v.toNat.log2 - 52) * 2 ^ 52 := by
  rw [unitDropped, two_pow_eq_mul_two_pow_52 hp, Nat.mul_mod_mul_right]

/-! ### The pattern UnitF64 gives -/

/-- The pattern after `packF64 e m`: a significand that overflows goes to the next exponent (43_generators.md R104). -/
def packNext (e m : Nat) : Word := if m + 1 = 2 ^ 53 then packF64 (e + 1) (2 ^ 52) else packF64 e (m + 1)

theorem unitF64_zero (mode : F64Rounding) : unitF64 mode 0 = 0 := if_pos rfl

/-- R104's first case: the significand holds all of `v`, so that the rounding does not matter. -/
theorem unitF64_of_log2_le (mode : F64Rounding) (hv : v ≠ 0) (hp : v.toNat.log2 ≤ 52) :
    unitF64 mode v = packF64 (v.toNat.log2 + 959) (unitSignificand v) := by
  rw [unitSignificand_of_le hp]
  exact (if_neg hv).trans (if_pos hp)

/-- R104's second case: the bits below the significand decide whether it goes up. -/
theorem unitF64_of_lt_log2 (mode : F64Rounding) (hv : v ≠ 0) (hp : 52 < v.toNat.log2) :
    unitF64 mode v =
      if roundsUp mode (unitSignificand v) (v.toNat % 2 ^ (v.toNat.log2 - 52)) (v.toNat.log2 - 52) then
        packNext (v.toNat.log2 + 959) (unitSignificand v)
      else packF64 (v.toNat.log2 + 959) (unitSignificand v) := by
  rw [unitSignificand_of_ge hp.le]
  exact (if_neg hv).trans (if_neg hp.not_ge)

/-- R104's test on the dropped bits is the test on `unitDropped`. -/
theorem roundsUp_rne_iff (hp : 52 < v.toNat.log2) :
    roundsUp .rne (unitSignificand v) (v.toNat % 2 ^ (v.toNat.log2 - 52)) (v.toNat.log2 - 52) = true ↔ RoundsToNext v := by
  have hhalf : 2 ^ (v.toNat.log2 - 52) = 2 * 2 ^ (v.toNat.log2 - 52 - 1) := by
    rw [← pow_succ', Nat.sub_add_cancel (by omega)]
  rw [RoundsToNext, unitDropped_of_ge hp.le, two_pow_eq_mul_two_pow_52 hp.le]
  simp only [roundsUp, Bool.or_eq_true, Bool.and_eq_true, decide_eq_true_eq]
  omega

/-- Where nothing is dropped RNE does not go up. -/
theorem not_roundsToNext_of_log2_le (hp : v.toNat.log2 ≤ 52) : ¬ RoundsToNext v := by
  have hpos := Nat.two_pow_pos v.toNat.log2
  rw [RoundsToNext, unitDropped_of_le hp]
  omega

theorem unitF64_rtz (hv : v ≠ 0) : unitF64 .rtz v = packF64 (v.toNat.log2 + 959) (unitSignificand v) := by
  obtain hp | hp := le_or_gt v.toNat.log2 52
  · exact unitF64_of_log2_le .rtz hv hp
  · exact (unitF64_of_lt_log2 .rtz hv hp).trans (if_neg Bool.false_ne_true)

theorem unitF64_rne_of_roundsToNext (hv : v ≠ 0) (hup : RoundsToNext v) :
    unitF64 .rne v = packNext (v.toNat.log2 + 959) (unitSignificand v) := by
  have hp : 52 < v.toNat.log2 := not_le.1 fun hp => not_roundsToNext_of_log2_le hp hup
  rw [unitF64_of_lt_log2 .rne hv hp, if_pos ((roundsUp_rne_iff hp).2 hup)]

theorem unitF64_rne_of_not_roundsToNext (hv : v ≠ 0) (hdown : ¬ RoundsToNext v) : unitF64 .rne v = unitF64 .rtz v := by
  obtain hp | hp := le_or_gt v.toNat.log2 52
  · rw [unitF64_of_log2_le .rne hv hp, unitF64_of_log2_le .rtz hv hp]
  · rw [unitF64_of_lt_log2 .rne hv hp, if_neg (mt (roundsUp_rne_iff hp).1 hdown), unitF64_rtz hv]

/-! ### The two neighbours as patterns and as values -/

theorem isPositiveNormal_packNext (hlow : 1 ≤ e) (hhigh : e ≤ 2045) (m : Nat) : IsPositiveNormal (packNext e m) := by
  rw [packNext]
  split
  · exact isPositiveNormal_packF64 (by omega) (by omega) _
  · exact isPositiveNormal_packF64 hlow (by omega) _

theorem f64Value_packNext (hlow : 1 ≤ e) (hhigh : e ≤ 2045) (hm : 2 ^ 52 ≤ m) (hm' : m < 2 ^ 53) :
    f64Value (packNext e m) = ((m + 1 : Nat) : ℚ) * 2 ^ ((e : ℤ) - 1075) := by
  rw [packNext]
  split
  · next hcarry =>
    have hexponent : ((e + 1 : Nat) : ℤ) - 1075 = (e : ℤ) - 1075 + 1 := by push_cast; ring
    rw [f64Value_packF64 (by omega) (by omega) le_rfl (by decide), hcarry, hexponent, zpow_add_one₀ two_ne_zero]
    push_cast
    ring
  · exact f64Value_packF64 hlow (by omega) (by omega) (by omega)

theorem f64Fraction_packNext_mod_two (hhigh : e ≤ 2045) (m : Nat) : f64Fraction (packNext e m) % 2 = (m + 1) % 2 := by
  rw [packNext]
  split <;> rw [f64Fraction_packF64 (by omega)] <;> omega

/-- The unit of the last place of `unitSignificand`, by exponent and by power. -/
theorem two_zpow_unitExponent (p : Nat) : (2 : ℚ) ^ (((p + 959 : Nat) : ℤ) - 1075) = 2 ^ p / 2 ^ 116 := by
  have hexponent : ((p + 959 : Nat) : ℤ) - 1075 = (p : ℤ) - (116 : Nat) := by push_cast; ring
  rw [hexponent, zpow_sub₀ two_ne_zero, zpow_natCast, zpow_natCast]

theorem isPositiveNormal_unitF64_rtz (hv : v ≠ 0) : IsPositiveNormal (unitF64 .rtz v) := by
  have hp := log2_toNat_le hv
  rw [unitF64_rtz hv]
  exact isPositiveNormal_packF64 (by omega) (by omega) _

theorem f64Value_unitF64_rtz (hv : v ≠ 0) : f64Value (unitF64 .rtz v) = unitLower v := by
  have hp := log2_toNat_le hv
  rw [unitF64_rtz hv, f64Value_packF64 (by omega) (by omega) (le_unitSignificand hv) (unitSignificand_lt v),
    two_zpow_unitExponent, unitLower, mul_div_assoc]

theorem f64Fraction_unitF64_rtz_mod_two (hv : v ≠ 0) : f64Fraction (unitF64 .rtz v) % 2 = unitSignificand v % 2 := by
  have hp := log2_toNat_le hv
  rw [unitF64_rtz hv, f64Fraction_packF64 (by omega)]
  omega

theorem f64Value_unitF64_rne_of_roundsToNext (hv : v ≠ 0) (hup : RoundsToNext v) : f64Value (unitF64 .rne v) = unitUpper v := by
  have hp := log2_toNat_le hv
  rw [unitF64_rne_of_roundsToNext hv hup,
    f64Value_packNext (by omega) (by omega) (le_unitSignificand hv) (unitSignificand_lt v), two_zpow_unitExponent, unitUpper,
    mul_div_assoc]

/-! ### Where v / 2^64 lies between them -/

/-- R104's significand and dropped bits are quotient and remainder. -/
theorem unitSignificand_mul_add_unitDropped (v : Word) :
    (unitSignificand v : ℚ) * 2 ^ v.toNat.log2 + unitDropped v = v.toNat * 2 ^ 52 := by
  exact_mod_cast Nat.div_add_mod' (v.toNat * 2 ^ 52) (2 ^ v.toNat.log2)

theorem unitValue_sub_unitLower (v : Word) : unitValue v - unitLower v = (unitDropped v : ℚ) / 2 ^ 116 := by
  rw [unitValue, unitLower, ← sub_eq_of_eq_add' (unitSignificand_mul_add_unitDropped v).symm]
  ring

theorem unitUpper_sub_unitValue (v : Word) :
    unitUpper v - unitValue v = (2 ^ v.toNat.log2 - unitDropped v : ℚ) / 2 ^ 116 := by
  have hulp : unitUpper v = unitLower v + 2 ^ v.toNat.log2 / 2 ^ 116 := by
    rw [unitUpper, unitLower]
    push_cast
    ring
  rw [hulp, sub_div, ← unitValue_sub_unitLower]
  ring

theorem unitLower_le_unitValue (v : Word) : unitLower v ≤ unitValue v := by
  rw [← sub_nonneg, unitValue_sub_unitLower]
  positivity

theorem unitValue_lt_unitUpper (v : Word) : unitValue v < unitUpper v := by
  have hdropped : unitDropped v < 2 ^ v.toNat.log2 := Nat.mod_lt _ (Nat.two_pow_pos _)
  have hcast : (unitDropped v : ℚ) < 2 ^ v.toNat.log2 := by exact_mod_cast hdropped
  rw [← sub_pos, unitUpper_sub_unitValue]
  exact div_pos (sub_pos.2 hcast) (by positivity)

/-- Which neighbour is nearer is a matter of the dropped bits. -/
theorem unitLower_nearer_iff :
    unitValue v - unitLower v ≤ unitUpper v - unitValue v ↔ 2 * unitDropped v ≤ 2 ^ v.toNat.log2 := by
  rw [unitValue_sub_unitLower, unitUpper_sub_unitValue, div_le_div_iff_of_pos_right (by positivity), le_sub_iff_add_le, ← two_mul]
  exact_mod_cast Iff.rfl

theorem unitUpper_nearer_iff :
    unitUpper v - unitValue v ≤ unitValue v - unitLower v ↔ 2 ^ v.toNat.log2 ≤ 2 * unitDropped v := by
  rw [unitValue_sub_unitLower, unitUpper_sub_unitValue, div_le_div_iff_of_pos_right (by positivity), sub_le_iff_le_add, ← two_mul]
  exact_mod_cast Iff.rfl

/-- No binary64 value lies between the two neighbours. -/
theorem f64Value_le_unitLower_or_ge (hb : IsF64 b) (hv : v ≠ 0) : f64Value b ≤ unitLower v ∨ unitUpper v ≤ f64Value b := by
  have hgap := f64Value_le_or_ge hb (le_unitSignificand hv) (((v.toNat.log2 + 959 : Nat) : ℤ) - 1075)
  rwa [two_zpow_unitExponent, ← mul_div_assoc, ← mul_div_assoc] at hgap

/-! ### Nearness on the two sides of a gap -/

/-- The lower end of a gap, where it is the nearer one, is nearest among what lies outside the gap; only the upper end can tie. -/
theorem nearest_of_lower (hlo : lo ≤ x) (hnear : x - lo ≤ hi - x) (hy : y ≤ lo ∨ hi ≤ y) :
    |lo - x| ≤ |y - x| ∧ (y ≠ lo → |y - x| = |lo - x| → hi - x = x - lo) := by
  rw [abs_of_nonpos (sub_nonpos.2 hlo)]
  obtain hbelow | habove := hy
  · rw [abs_of_nonpos (by linarith)]
    exact ⟨by linarith, fun hne heq => absurd (by linarith) hne⟩
  · rw [abs_of_nonneg (by linarith)]
    exact ⟨by linarith, fun _ heq => by linarith⟩

/-- The mirror image of `nearest_of_lower`. -/
theorem nearest_of_upper (hhi : x ≤ hi) (hnear : hi - x ≤ x - lo) (hy : y ≤ lo ∨ hi ≤ y) :
    |hi - x| ≤ |y - x| ∧ (y ≠ hi → |y - x| = |hi - x| → hi - x = x - lo) := by
  have hmirror := nearest_of_lower (lo := -hi) (hi := -lo) (x := -x) (y := -y) (neg_le_neg hhi) (by linarith)
    (hy.symm.imp neg_le_neg neg_le_neg)
  simpa only [neg_sub_neg, abs_sub_comm x, ne_eq, neg_inj, eq_comm (a := x - lo)] using hmirror

end Sys2Proof.Proofs
end

section
/-! What R104 draws from `UnitF64` (spec/43_generators.md R104, R105): each rounding's choice between the neighbours, the range
of NEXTF64, and the inputs whose value is exact or 1.0. -/

namespace Sys2Proof.Proofs

open Sys2Proof.Machine Sys2Proof.Safety Sys2Proof.Laws

variable {v b : Word}

/-! ### Each rounding's choice -/

theorem isF64_unitF64_rtz (v : Word) : IsF64 (unitF64 .rtz v) := by
  by_cases hv : v = 0
  · exact .inl (by rw [hv, unitF64_zero])
  · exact .inr (isPositiveNormal_unitF64_rtz hv)

theorem isF64_unitF64_rne (v : Word) : IsF64 (unitF64 .rne v) := by
  by_cases hv : v = 0
  · exact .inl (by rw [hv, unitF64_zero])
  by_cases hup : RoundsToNext v
  · have hp := log2_toNat_le hv
    rw [unitF64_rne_of_roundsToNext hv hup]
    exact .inr (isPositiveNormal_packNext (by omega) (by omega) _)
  · rw [unitF64_rne_of_not_roundsToNext hv hup]
    exact isF64_unitF64_rtz v

theorem unitValue_zero : unitValue 0 = 0 := by simp [unitValue]

theorem f64Value_unitF64_zero (mode : F64Rounding) : f64Value (unitF64 mode 0) = unitValue 0 := by
  rw [unitF64_zero, f64Value_zero, unitValue_zero]

theorem f64Value_unitF64_rtz_le (v : Word) : f64Value (unitF64 .rtz v) ≤ unitValue v := by
  by_cases hv : v = 0
  · rw [hv, f64Value_unitF64_zero]
  · exact (f64Value_unitF64_rtz hv).trans_le (unitLower_le_unitValue v)

theorem f64Value_le_unitF64_rtz (hb : IsF64 b) (hle : f64Value b ≤ unitValue v) : f64Value b ≤ f64Value (unitF64 .rtz v) := by
  by_cases hv : v = 0
  · subst hv
    rwa [f64Value_unitF64_zero]
  · rw [f64Value_unitF64_rtz hv]
    exact (f64Value_le_unitLower_or_ge hb hv).resolve_right fun hge => (hge.trans hle).not_gt (unitValue_lt_unitUpper v)

/-- RNE takes the nearer neighbour, and of two neighbours as near the one with an even significand. -/
theorem unitF64_rne_nearest (hb : IsF64 b) :
    |f64Value (unitF64 .rne v) - unitValue v| ≤ |f64Value b - unitValue v| ∧
      (f64Value b ≠ f64Value (unitF64 .rne v) →
        |f64Value b - unitValue v| = |f64Value (unitF64 .rne v) - unitValue v| → f64Fraction (unitF64 .rne v) % 2 = 0) := by
  by_cases hv : v = 0
  · subst hv
    rw [f64Value_unitF64_zero, sub_self, abs_zero, unitF64_zero]
    exact ⟨abs_nonneg _, fun _ _ => rfl⟩
  have hgap := f64Value_le_unitLower_or_ge hb hv
  have htie : unitUpper v - unitValue v = unitValue v - unitLower v → 2 * unitDropped v = 2 ^ v.toNat.log2 := fun heq =>
    le_antisymm (unitLower_nearer_iff.1 heq.ge) (unitUpper_nearer_iff.1 heq.le)
  by_cases hup : RoundsToNext v
  · have hhalf : 2 ^ v.toNat.log2 ≤ 2 * unitDropped v := hup.elim le_of_lt fun h => h.1.ge
    obtain ⟨hnear, honly⟩ := nearest_of_upper (unitValue_lt_unitUpper v).le (unitUpper_nearer_iff.2 hhalf) hgap
    have hp := log2_toNat_le hv
    rw [f64Value_unitF64_rne_of_roundsToNext hv hup, unitF64_rne_of_roundsToNext hv hup, f64Fraction_packNext_mod_two (by omega)]
    refine ⟨hnear, fun hne heq => ?_⟩
    have hequal := htie (honly hne heq)
    rw [RoundsToNext] at hup
    omega
  · have hhalf : 2 * unitDropped v ≤ 2 ^ v.toNat.log2 := not_lt.1 fun h => hup (.inl h)
    obtain ⟨hnear, honly⟩ := nearest_of_lower (unitLower_le_unitValue v) (unitLower_nearer_iff.2 hhalf) hgap
    rw [unitF64_rne_of_not_roundsToNext hv hup, f64Value_unitF64_rtz hv, f64Fraction_unitF64_rtz_mod_two hv]
    refine ⟨hnear, fun hne heq => ?_⟩
    have hequal := htie (honly hne heq)
    rw [RoundsToNext] at hup
    omega

/-! ### The range below 1 -/

theorem unitValue_lt_one (v : Word) : unitValue v < 1 := by
  have hlt : (v.toNat : ℚ) < 2 ^ 64 := by exact_mod_cast v.isLt
  rw [unitValue]
  exact (div_lt_one (by positivity)).2 hlt

/-- The largest binary64 value below 1 is 1 - 2^-53 (43_generators.md R104). -/
theorem f64Value_le_of_lt_one (hb : IsF64 b) (hlt : f64Value b < 1) : f64Value b ≤ 1 - 1 / 2 ^ 53 := by
  obtain hle | hge := f64Value_le_or_ge hb (show 2 ^ 52 ≤ 2 ^ 53 - 1 by decide) (-53)
  · refine hle.trans_eq ?_
    norm_num
  · refine absurd (hge.trans_lt hlt) ?_
    norm_num

/-! ### Exact results, and 1.0 -/

/-- Nothing is dropped of an input of at most 53 bits (43_generators.md R104). -/
theorem f64Value_unitF64_of_lt (mode : F64Rounding) (hlt : v.toNat < 2 ^ 53) : f64Value (unitF64 mode v) = unitValue v := by
  by_cases hv : v = 0
  · rw [hv, f64Value_unitF64_zero]
  have hp : v.toNat.log2 ≤ 52 := Nat.le_of_lt_succ ((Nat.log2_lt (toNat_ne_zero hv)).2 hlt)
  have hexact := unitValue_sub_unitLower v
  rw [unitDropped_of_le hp, Nat.cast_zero, zero_div, sub_eq_zero] at hexact
  rw [unitF64_of_log2_le mode hv hp, ← unitF64_rtz hv, f64Value_unitF64_rtz hv, hexact]

theorem f64Value_one : f64Value 0x3FF0000000000000 = 1 := by
  rw [show (0x3FF0000000000000 : Word) = packF64 1023 (2 ^ 52) by decide, f64Value_packF64] <;> norm_num

/-- The pattern of the largest value below 1. -/
theorem f64Value_below_one : f64Value 0x3FEFFFFFFFFFFFFF = 1 - 1 / 2 ^ 53 := by
  rw [show (0x3FEFFFFFFFFFFFFF : Word) = packF64 1022 (2 ^ 53 - 1) by decide, f64Value_packF64] <;> norm_num

/-- 1.0 is no farther than the value below it for inputs in the upper half of that gap only. -/
theorem le_toNat_of_unitF64_rne_eq_one (h : unitF64 .rne v = 0x3FF0000000000000) : 2 ^ 64 - 1024 ≤ v.toNat := by
  have hb : IsF64 0x3FEFFFFFFFFFFFFF := by decide
  obtain ⟨hnear, -⟩ := unitF64_rne_nearest (v := v) hb
  have hlt := unitValue_lt_one v
  rw [h, f64Value_one, f64Value_below_one, abs_of_pos (sub_pos.2 hlt)] at hnear
  have hvalue : (2 ^ 64 - 1024 : ℚ) / 2 ^ 64 ≤ unitValue v := by
    obtain hpos | hneg := le_abs.1 hnear <;> linarith
  rw [unitValue, div_le_div_iff_of_pos_right (by positivity), sub_le_iff_le_add] at hvalue
  have hnat : 2 ^ 64 ≤ v.toNat + 1024 := by exact_mod_cast hvalue
  omega

/-- From 2^64 - 1024 on the significand is all ones and at least half a unit of its last place is dropped. -/
theorem unitF64_rne_eq_one_of_le (hle : 2 ^ 64 - 1024 ≤ v.toNat) : unitF64 .rne v = 0x3FF0000000000000 := by
  have hlt := v.isLt
  have hv : v ≠ 0 := by
    rintro rfl
    exact absurd hle (by decide)
  have hlog : v.toNat.log2 = 63 := (Nat.log2_eq_iff (toNat_ne_zero hv)).2 ⟨by omega, by omega⟩
  have hones : unitSignificand v = 2 ^ 53 - 1 := by
    rw [unitSignificand, hlog]
    omega
  have hup : RoundsToNext v := by
    rw [RoundsToNext, hones, unitDropped, hlog]
    omega
  rw [unitF64_rne_of_roundsToNext hv hup, hlog, hones]
  decide

end Sys2Proof.Proofs

namespace Sys2Proof.Proofs

open Sys2Proof.Machine Sys2Proof.Safety Sys2Proof.Laws

/-- Settles O41: no binary64 value lies between UnitF64(v) and v / 2^64 (`f64Value_le_unitF64_rtz`). -/
theorem unitF64TowardZeroIsLargestBelow : Obligations.UnitF64TowardZeroIsLargestBelow := fun v =>
  ⟨isF64_unitF64_rtz v, f64Value_unitF64_rtz_le v, fun _ => f64Value_le_unitF64_rtz⟩

/-- Settles O42: RNE takes the nearer of the two neighbours of v / 2^64 (`unitF64_rne_nearest`). -/
theorem unitF64NearestTiesToEven : Obligations.UnitF64NearestTiesToEven := fun v =>
  ⟨isF64_unitF64_rne v, fun _ hb => (unitF64_rne_nearest hb).1, fun _ hb => (unitF64_rne_nearest hb).2⟩

/-- Settles O43: nothing is dropped below 2^53; that 1.0 needs v >= 2^64 - 1024 follows from its being nearest. -/
theorem unitF64ExactAndOne : Obligations.UnitF64ExactAndOne :=
  ⟨fun mode _ => f64Value_unitF64_of_lt mode, fun _ => ⟨le_toNat_of_unitF64_rne_eq_one, unitF64_rne_eq_one_of_le⟩⟩

/-- Settles O40: this hardware rounds toward zero, so the answer is at most v / 2^64 < 1, and no binary64 value lies between
1 - 2^-53 and 1. -/
theorem nextf64AnswersUnitDouble : Obligations.Nextf64AnswersUnitDouble := by
  intro s
  refine ⟨exec_notInitialized rfl rfl, fun hv hs => ?_⟩
  obtain ⟨t, hexec, hconsumed⟩ := exec_generator (i := .nextf64) rfl rfl hv hs
  have hf64 := isF64_unitF64_rtz (BitVec.ofNat 64 (streamNat (streamBit hardware s) 64))
  have hlt := (f64Value_unitF64_rtz_le _).trans_lt (unitValue_lt_one (BitVec.ofNat 64 (streamNat (streamBit hardware s) 64)))
  exact ⟨t, _, hexec, hconsumed, rfl, hf64, f64Value_nonneg _, f64Value_le_of_lt_one hf64 hlt⟩

end Sys2Proof.Proofs
end

section
/-! The STATUS of a command's response, and that an error is the command's whole effect (spec/60_exceptions.md R130 to R133). -/

namespace Sys2Proof.Proofs

open Sys2Proof.Machine Sys2Proof.Safety Sys2Proof.Laws

variable {P : Params} {i : Instr} {s t : State} {r : Response}

/-- R130's table read from code to STATUS; the 251 codes that are not in it, which no STATUS has, are read as OK. -/
def statusOfCode : Byte → Status
  | 0x01#8 => .outOfRange
  | 0x02#8 => .invalidArgument
  | 0x03#8 => .notInitialized
  | 0x04#8 => .illegalCommand
  | _ => .ok

theorem statusOfCode_statusCode : Function.LeftInverse statusOfCode statusCode := by
  rintro (_ | _ | _ | _ | _) <;> rfl

theorem statusCode_toNat_le (a : Status) : (statusCode a).toNat ≤ 0x04 := by
  cases a <;> decide

theorem getLast?_trace_emit (s : State) (e : PortEvent) : (s.emit e).trace.getLast? = some e := by
  rw [State.emit_trace, List.getLast?_concat]

/-- An event given last is the one the record ends with. -/
theorem eq_of_getLast?_trace_emit {r' : Response} (hlast : (s.emit (.response r')).trace.getLast? = some (.response r)) :
    r = r' := by
  rw [getLast?_trace_emit] at hlast
  cases hlast
  rfl

theorem Responded.getLast?_trace (h : Responded s r t) : t.trace.getLast? = some (.response r) := by
  obtain ⟨es, htrace, -⟩ := h
  rw [htrace, List.getLast?_concat]

theorem fieldsResponse_status (P : Params) (i : Instr) (fields : List Word) : (fieldsResponse P i fields).status = .ok := by
  cases i <;> rfl

theorem acceptedResponse_status (P : Params) (i : Instr) (σ : Nat → Bool) : (acceptedResponse P i σ).status = .ok := by
  cases i <;> rfl

/-- The response a decoded command gives last has the STATUS of R132's table. -/
theorem CommandOutcome.status (h : CommandOutcome P i s t) (hlast : t.trace.getLast? = some (.response r)) :
    r.status = expectedStatus P i s.valid := by
  cases h with
  | failed _ => rw [eq_of_getLast?_trace_emit hlast]
  | generated hok _ => rw [eq_of_getLast?_trace_emit hlast, fieldsResponse_status, hok]
  | stateless hok _ _ => rw [eq_of_getLast?_trace_emit hlast, acceptedResponse_status, hok]
  | loaded hok _ => rw [eq_of_getLast?_trace_emit hlast, hok]; rfl

/-- A decoded command that ends with an error has given that response and done nothing else (60_exceptions.md R131). -/
theorem CommandOutcome.precise (h : CommandOutcome P i s t) (hlast : t.trace.getLast? = some (.response r))
    (herror : r.status ≠ .ok) : r.value = 0 ∧ r.bytes = [] ∧ t = s.emit (.response r) := by
  rw [h.status hlast] at herror
  cases h with
  | failed _ =>
    rw [eq_of_getLast?_trace_emit hlast]
    exact ⟨rfl, rfl, rfl⟩
  | generated hok _ | stateless hok _ _ | loaded hok _ => exact absurd hok herror

end Sys2Proof.Proofs

namespace Sys2Proof.Proofs

open Sys2Proof.Machine Sys2Proof.Safety Sys2Proof.Laws

/-- Settles O52: the command has an outcome, which gives one response (`CommandOutcome.responded`) with the table's STATUS
(`CommandOutcome.status`); an illegal header does not decode (`decode_error_of_illegal`). -/
theorem statusesAsTabled : Obligations.StatusesAsTabled := by
  refine ⟨fun i s => ?_, fun _ _ _ hp hillegal => step_of_decode_error hp (decode_error_of_illegal hillegal)⟩
  obtain ⟨t, hexec, houtcome⟩ := execWith_outcome hardware i s
  obtain ⟨r, -, hresponded⟩ := houtcome.responded
  have hstatus := houtcome.status hresponded.getLast?_trace
  obtain ⟨es, htrace, hdraws⟩ := hresponded
  exact ⟨t, es, r, (execWith_hardware i s).symm.trans hexec, htrace, hdraws, hstatus⟩

/-- Settles O53: the command presented decodes, and its outcome is precise (`CommandOutcome.precise`), or it is answered
ILLEGAL_COMMAND and nothing else happens. -/
theorem errorsArePrecise : Obligations.ErrorsArePrecise := by
  intro s rest c t r hp hstep hlast herror
  cases outcome_of_step hstep with
  | command hp' _ houtcome =>
    cases hp.symm.trans hp'
    exact houtcome.precise hlast herror
  | illegal hp' =>
    cases hp.symm.trans hp'
    rw [eq_of_getLast?_trace_emit hlast]
    exact ⟨rfl, rfl, rfl⟩
  | idle hp' | read _ _ hp' | reset hp' => cases hp.symm.trans hp'

/-- Settles O11: `stepUsing_nil` for this hardware's commands. -/
theorem idleBlockKeepsState : Obligations.IdleBlockKeepsState := fun _ => stepUsing_nil

/-- Settles O18: the table is `statusCode` row by row, and no two rows share a code because each is read back
(`statusOfCode_statusCode`). -/
theorem statusCodesAsTabled : Obligations.StatusCodesAsTabled :=
  ⟨rfl, rfl, rfl, rfl, rfl, fun _ _ hcode => statusOfCode_statusCode.injective hcode, statusCode_toNat_le⟩

end Sys2Proof.Proofs
end

section
/-! What reset, a read of an element without a value and every other act do to the block (spec/70_reset_and_hazards.md R150, R157;
spec/10_state.md R27). -/

namespace Sys2Proof.Proofs

open Sys2Proof.Machine Sys2Proof.Safety Sys2Proof.Laws

variable {s : State} {n : Fin 4} {rest : List HostAct}

/-- VALID is element 0 and no other (10_state.md R20). -/
theorem elementOfNumber_eq_valid_iff : elementOfNumber n = .valid ↔ n = 0 := by
  revert n
  decide

/-- The reset event puts the reset state's elements in place and passes nothing over a port. -/
theorem step_reset (hp : s.pending = .reset :: rest) :
    step s = .next { State.reset with pending := rest, trace := s.trace } := by
  rw [step, stepUsing_cons hp]
  rfl

end Sys2Proof.Proofs

namespace Sys2Proof.Proofs

open Sys2Proof.Machine Sys2Proof.Safety Sys2Proof.Laws

/-- Settles O13: act by act; a command has a next state because it gets a response (`everyCommandGetsOneResponse`), and a read stops
exactly where its element holds no value. -/
theorem stepStopsOnlyOnInvalidRead : Obligations.StepStopsOnlyOnInvalidRead := by
  intro s
  refine ⟨?_, fun hno => ?_⟩
  · rintro ⟨n, rest, hp, hn, hinvalid⟩
    exact ⟨_, step_stateRead_faults hp hinvalid (mt elementOfNumber_eq_valid_iff.1 hn)⟩
  · cases hp : s.pending with
    | nil => exact ⟨s, idleBlockKeepsState s hp⟩
    | cons act rest =>
      cases act with
      | command c =>
        obtain ⟨t, -, -, hstep, -⟩ := everyCommandGetsOneResponse s rest c hp
        exact ⟨t, hstep⟩
      | stateRead n =>
        refine ⟨_, step_stateRead_answers hp ?_⟩
        by_contra hread
        obtain ⟨hinvalid, hne⟩ := not_or.1 hread
        exact hno ⟨n, rest, hp, mt elementOfNumber_eq_valid_iff.2 hne, Bool.eq_false_iff.2 hinvalid⟩
      | reset => exact ⟨_, step_reset hp⟩

/-- Settles O15: the state after the reset event has VALID = 0 (`step_reset`), so the three reads fault there. -/
theorem resetClearsValid : Obligations.ResetClearsValid := by
  intro s rest hp
  exact ⟨_, step_reset hp, rfl, rfl, rfl, fun n hn =>
    ⟨elementOfNumber n, step_stateRead_faults rfl rfl (mt elementOfNumber_eq_valid_iff.1 hn)⟩⟩

end Sys2Proof.Proofs
end

section
/-! The first word after INIT (spec/70_reset_and_hazards.md R152): NEXTU64 answers whichever word the next 64 stream bits are. -/

namespace Sys2Proof.Proofs

open Sys2Proof.Machine Sys2Proof.Safety Sys2Proof.Laws

variable {P : Params} {s : State}

/-- With FRESH = 64 the first 64 stream bits are those of BUFFER. -/
theorem streamBit_of_fresh_full (hf : s.fresh = 64) {k : Nat} (hk : k < 64) : streamBit P s k = s.buffer.getLsbD k := by
  simp [streamBit, streamFrom, hf, hk]

/-- NEXTU64 answers the word `w` whose bits come next in the stream, after the draws that 64 bits need. -/
theorem exec_nextu64_of_streamBit {w : Word} (hv : s.valid = true) (hs : FreshInRange s)
    (hw : ∀ k < 64, streamBit hardware s k = w.getLsbD k) :
    ∃ u, exec .nextu64 s = .next u ∧
      u.trace = s.trace ++ drawEvents hardware s.cursor (drawsNeeded s.fresh.toNat 64) ++ [.response ⟨.ok, w, []⟩] := by
  have hword : w = BitVec.ofNat 64 (streamNat (streamBit hardware s) 64) :=
    eq_ofNat_streamNat fun k hk => by rw [hw k hk, decide_eq_true hk, Bool.true_and]
  obtain ⟨-, hanswers, -⟩ := nextu64AnswersStreamBits s
  obtain ⟨u, hexec, -, -, -, htrace, -⟩ := hanswers hv hs
  exact ⟨u, hexec, hword ▸ htrace⟩

/-- NEXTU64 with nothing fresh draws once and answers that raw word. -/
theorem exec_nextu64_of_fresh_zero (hv : s.valid = true) (hf : s.fresh = 0) :
    ∃ u, exec .nextu64 s = .next u ∧
      u.trace = s.trace ++ [.draw s.cursor (Config.wsNext s.cursor).1 (Config.wsNext s.cursor).2,
        .response ⟨.ok, (Config.wsNext s.cursor).1, []⟩] := by
  have hrange : FreshInRange s := by simp [FreshInRange, hf]
  obtain ⟨u, hexec, htrace⟩ := exec_nextu64_of_streamBit hv hrange fun _ => streamBit_of_fresh_zero hf
  refine ⟨u, hexec, ?_⟩
  rw [htrace, hf, List.append_assoc]
  rfl

/-- NEXTU64 with all 64 bits fresh draws nothing and answers BUFFER. -/
theorem exec_nextu64_of_fresh_full (hv : s.valid = true) (hf : s.fresh = 64) :
    ∃ u, exec .nextu64 s = .next u ∧ u.trace = s.trace ++ [.response ⟨.ok, s.buffer, []⟩] := by
  have hrange : FreshInRange s := by simp [FreshInRange, hf]
  obtain ⟨u, hexec, htrace⟩ := exec_nextu64_of_streamBit hv hrange fun _ => streamBit_of_fresh_full hf
  refine ⟨u, hexec, ?_⟩
  rw [htrace, hf, List.append_assoc]
  rfl

end Sys2Proof.Proofs

namespace Sys2Proof.Proofs

open Sys2Proof.Machine Sys2Proof.Safety Sys2Proof.Laws

/-- Settles O51: INIT loads its operands (`initBuildsState`), so NEXTU64 finds nothing fresh after the first form, and after the second
a full BUFFER that holds the seed. -/
theorem initFormsStartTheStream : Obligations.InitFormsStartTheStream := by
  intro seed s hseed
  obtain ⟨hempty, -⟩ := initBuildsState seed 0 0 s
  obtain ⟨hfull, -⟩ := initBuildsState seed seed 64 s
  exact ⟨⟨_, exists_and_left.2 ⟨hempty hseed (by decide), exec_nextu64_of_fresh_zero rfl rfl⟩⟩,
    ⟨_, exists_and_left.2 ⟨hfull hseed (by decide), exec_nextu64_of_fresh_full rfl rfl⟩⟩⟩

end Sys2Proof.Proofs
end

section
/-! A block that is not initialised stays as it is until an INIT or LDSTATE (spec/70_reset_and_hazards.md R151). -/

namespace Sys2Proof.Proofs

open Sys2Proof.Machine Sys2Proof.Safety Sys2Proof.Laws

variable {P : Params} {i : Instr} {s t : State}

theorem isStateCommand_eq_false (h : ∀ a b c, i ≠ .init a b c ∧ i ≠ .ldstate a b c) : isStateCommand i = false := by
  cases i with
  | init a b c => exact absurd rfl (h a b c).1
  | ldstate a b c => exact absurd rfl (h a b c).2
  | _ => rfl

/-- While VALID = 0 a command that is no state command fails or is stateless: it gives a response and nothing else. -/
theorem CommandOutcome.sameDraws_of_invalid (h : CommandOutcome P i s t) (hst : isStateCommand i = false)
    (hinvalid : s.valid = false) : SameDraws s t := by
  cases h with
  | failed _ | stateless _ _ _ => exact (SameDraws.refl s).emit_response _
  | generated hok hgen => exact absurd ((valid_of_generator_ok hok hgen).symm.trans hinvalid) (by decide)
  | loaded _ hst' => exact absurd (hst'.symm.trans hst) (by decide)

/-- Any run of such commands from VALID = 0 leaves the elements alone and draws nothing. -/
theorem runCommands_of_invalid {is : List Instr} (hst : ∀ i ∈ is, isStateCommand i = false) (hinvalid : s.valid = false) :
    ∃ t, runCommands exec is s = .next t ∧ SameDraws s t := by
  induction is generalizing s with
  | nil => exact ⟨s, rfl, .refl s⟩
  | cons i is ih =>
    obtain ⟨hi, his⟩ := List.forall_mem_cons.1 hst
    obtain ⟨u, hexec, houtcome⟩ := execWith_outcome hardware i s
    rw [execWith_hardware] at hexec
    have hfirst := houtcome.sameDraws_of_invalid hi hinvalid
    obtain ⟨hvalid, -⟩ := hfirst.elements
    obtain ⟨t, hrun, hrest⟩ := ih his (hvalid.trans hinvalid)
    exact ⟨t, by rw [runCommands, hexec]; exact hrun, hfirst.trans hrest⟩

end Sys2Proof.Proofs

namespace Sys2Proof.Proofs

open Sys2Proof.Machine Sys2Proof.Safety Sys2Proof.Laws

/-- Settles O56: the run changes no element (`runCommands_of_invalid`, by induction on the list), so VALID is still 0 when the
generator comes. -/
theorem generatorsFailUntilInitialised : Obligations.GeneratorsFailUntilInitialised := by
  intro is s hinvalid hother
  obtain ⟨t, hrun, hsame⟩ := runCommands_of_invalid (fun i hi => isStateCommand_eq_false (hother i hi)) hinvalid
  obtain ⟨hvalid, -⟩ := hsame.elements
  exact ⟨t, hrun, hsame.elements, fun _ hgen hw => exec_notInitialized hgen hw (hvalid.trans hinvalid)⟩

end Sys2Proof.Proofs
end
